-- ==== Sys2Proof/Word.lean ====
section
/-!
DEFINITION. The word types of the Chip-8 CORE: bytes, opcode words, the immediates' widths and register numbers
(00_scope.md R9, R12; 30_encoding.md R72, R73).
-/

namespace Sys2Proof

/-- A byte: a general register, a timer, a memory cell, the immediate `kk` (10_state.md R19, 20_memory.md R50). -/
abbrev Byte := BitVec 8

/-- A 16-bit word: an opcode word, PC, I, a stack slot (30_encoding.md R71, 10_state.md R23, R24, R26). -/
abbrev Word := BitVec 16

/-- The nibble immediate `n` (30_encoding.md R72). -/
abbrev Nibble := BitVec 4

/-- The address immediate `nnn`, 0..0xFFF (30_encoding.md R72, R74). -/
abbrev Addr12 := BitVec 12

/-- A register number, V0 to VF: a register field always names one of them (30_encoding.md R73). -/
abbrev Reg := Fin 16

/-- A key number, 0x0 to 0xF (10_state.md R29). -/
abbrev Key := Fin 16

end Sys2Proof
end

