-- ==== Sys2Proof/Syntax.lean ====
section
/-!
DEFINITION. The 35 instructions of the Chip-8 CORE, one constructor per row of spec/opcode_table.json, each with every
field its pattern leaves free (30_encoding.md R76, R78).
-/

namespace Sys2Proof

/-- One instruction. The constructors stand in the order of 30_encoding.md R76; each names its pattern and its rule. -/
inductive Instr where
  | sys (nnn : Addr12)              -- 0nnn  SYS nnn       R89
  | cls                             -- 00E0  CLS           R125
  | ret                             -- 00EE  RET           R90
  | jp (nnn : Addr12)               -- 1nnn  JP nnn        R91
  | call (nnn : Addr12)             -- 2nnn  CALL nnn      R92
  | seImm (x : Reg) (kk : Byte)     -- 3xkk  SE Vx, kk     R95
  | sneImm (x : Reg) (kk : Byte)    -- 4xkk  SNE Vx, kk    R96
  | seReg (x y : Reg)               -- 5xy0  SE Vx, Vy     R97
  | ldImm (x : Reg) (kk : Byte)     -- 6xkk  LD Vx, kk     R101
  | addImm (x : Reg) (kk : Byte)    -- 7xkk  ADD Vx, kk    R102
  | ldReg (x y : Reg)               -- 8xy0  LD Vx, Vy     R103
  | orReg (x y : Reg)               -- 8xy1  OR Vx, Vy     R104
  | andReg (x y : Reg)              -- 8xy2  AND Vx, Vy    R105
  | xorReg (x y : Reg)              -- 8xy3  XOR Vx, Vy    R106
  | addReg (x y : Reg)              -- 8xy4  ADD Vx, Vy    R107
  | sub (x y : Reg)                 -- 8xy5  SUB Vx, Vy    R108
  | shr (x y : Reg)                 -- 8xy6  SHR Vx, Vy    R109
  | subn (x y : Reg)                -- 8xy7  SUBN Vx, Vy   R110
  | shl (x y : Reg)                 -- 8xyE  SHL Vx, Vy    R111
  | sneReg (x y : Reg)              -- 9xy0  SNE Vx, Vy    R98
  | ldI (nnn : Addr12)              -- Annn  LD I, nnn     R114
  | jpV0 (nnn : Addr12)             -- Bnnn  JP V0, nnn    R93
  | rnd (x : Reg) (kk : Byte)       -- Cxkk  RND Vx, kk    R112
  | drw (x y : Reg) (n : Nibble)    -- Dxyn  DRW Vx, Vy, n R124
  | skp (x : Reg)                   -- Ex9E  SKP Vx        R126
  | sknp (x : Reg)                  -- ExA1  SKNP Vx       R127
  | ldVxDT (x : Reg)                -- Fx07  LD Vx, DT     R120
  | ldVxK (x : Reg)                 -- Fx0A  LD Vx, K      R128
  | ldDTVx (x : Reg)                -- Fx15  LD DT, Vx     R121
  | ldSTVx (x : Reg)                -- Fx18  LD ST, Vx     R122
  | addI (x : Reg)                  -- Fx1E  ADD I, Vx     R115
  | ldF (x : Reg)                   -- Fx29  LD F, Vx      R116
  | ldB (x : Reg)                   -- Fx33  LD B, Vx      R117
  | ldMemVx (x : Reg)               -- Fx55  LD [I], Vx    R118
  | ldVxMem (x : Reg)               -- Fx65  LD Vx, [I]    R119
  deriving DecidableEq, Repr

end Sys2Proof
end

