-- ==== Sys2Proof/Config.lean ====
section
/-!
DEFINITION. What the spec fixes once and what it leaves to the host: the fixed sizes (00_scope.md R9), the four open
parameters (R10) and the RNG oracle (R10, R17). Nothing here chooses a value for an open parameter.
-/

namespace Sys2Proof

/-- The size of the memory: 4096 bytes, addresses 0x000..0xFFF (00_scope.md R9, 20_memory.md R48). -/
abbrev memSize : Nat := 4096

/-- Where a ROM is loaded and where PC stands after reset (00_scope.md R9, 10_state.md R39). -/
abbrev programBase : Nat := 0x200

/-- The largest ROM, 3584 bytes (20_memory.md R65). -/
abbrev maxRomSize : Nat := 3584

/-- `UNKNOWN_MODE`: what an unrecognised word does (30_encoding.md R84, 92_eei_decisions.md D17). -/
inductive UnknownMode where
  | strict
  | lenient
  deriving DecidableEq, Repr, Inhabited

/-- `SHIFT_SOURCE`: which register SHR and SHL shift (42_alu.md R109, R111; D15). -/
inductive ShiftSource where
  | vy
  | vx
  deriving DecidableEq, Repr, Inhabited

/-- `I_WRAP`: the modulus of I arithmetic, 4096 or 65536 (43_index_memory.md R113; D16). -/
inductive IWrap where
  | at4096
  | at65536
  deriving DecidableEq, Repr, Inhabited

/-- The open parameters of 00_scope.md R10 but for the oracle. The spec has a model take them as arguments: they stand in
`State.params`, so that a statement about every state holds for every setting (log entry 1). -/
structure Params where
  unknownMode : UnknownMode
  shiftSource : ShiftSource
  loadStoreIncrement : Bool
  iWrap : IWrap
  deriving DecidableEq, Repr, Inhabited

/-- DESIGN CHOICE (log entry 1, safe): the setting the host made before power-up. It has no body: nothing about it can be
proved, so nothing can rest on one setting. -/
opaque Config.hostParams : Params

/-- DESIGN CHOICE (log entry 2, safe): the byte the RNG oracle gives at its n-th draw. It has no body: no value, no
distribution and no relation between draws can be proved (42_alu.md R112, 92_eei_decisions.md D18). -/
opaque Config.rng : Nat → Byte

end Sys2Proof
end

