-- ==== Sys2Proof/Machine/State.lean ====
section
/-!
DEFINITION. The core's state as plain data (10_state.md section 1), the five errors (60_exceptions.md R130), the reasons a
step can stop, and the state after reset (10_state.md R37 to R47).
-/

namespace Sys2Proof.Machine

/-- The display buffer FB: 32 rows, top first, each of 64 pixels, left first; true is a set pixel (10_state.md R28). -/
abbrev Framebuffer := Vector (Vector Bool 64) 32

/-- The memory M as the cells that differ from the reset contents, in rising address order (20_memory.md R48, R50). -/
abbrev Memory := List Host.Cell

/-- The five error kinds with the info each records (60_exceptions.md R130). -/
inductive CoreError where
  /-- Code 1: the first out-of-range address, a natural number of at least 0x1000. -/
  | addressOutOfRange (addr : Nat)
  /-- Code 2: PC of the CALL. -/
  | stackOverflow (pc : Word)
  /-- Code 3: PC of the RET. -/
  | stackUnderflow (pc : Word)
  /-- Code 4: the word and its address. -/
  | unknownOpcode (w : Word) (pc : Word)
  /-- Code 5, never fatal: the rejected length. Only `load_rom` gives it. -/
  | romTooLarge (len : Nat)
  deriving DecidableEq, Repr

/-- Why the machine stops with a fault. It has no constructor: every error of this core is synchronous and the spec gives
its whole effect, the halt (60_exceptions.md R133), after which ticks, keys and reset still act. So a raised error is a
next state with HALT set, and no step can fault (log entry 4, safe). -/
inductive Fault where
  deriving DecidableEq, Repr

/-- Why the model gives an event no meaning. -/
inductive Refusal where
  /-- Raised by a dispatch arm with no meaning yet. No arm of this model raises it. Safe. -/
  | notModelled (mnemonic : String)
  /-- Raised by `load_rom` after a successful load or after the first step since reset (20_memory.md R64, D21). Safe. -/
  | loadRomOutsideContract
  /-- Raised by `set_key` with an index above 15 (60_exceptions.md R151, D23). Safe. -/
  | keyIndexOutsideContract
  /-- Raised by a choice of parameters after the first step since reset (70_reset_and_hazards.md R160, D28). Safe. -/
  | parametersOutsideContract
  deriving DecidableEq, Repr

/-- The state of the core: the record of 10_state.md section 1, then the model's own two fields. -/
structure State where
  /-- V0..VF (R19). -/
  v : Vector Byte 16
  /-- The index register I (R23). -/
  i : Word
  /-- PC (R24). -/
  pc : Word
  /-- SP, 0..16, the number of occupied slots (R25). -/
  sp : Fin 17
  /-- S[0..15] (R26). -/
  stack : Vector Word 16
  /-- DT (R27). -/
  dt : Byte
  /-- ST (R27). -/
  st : Byte
  /-- FB (R28). -/
  fb : Framebuffer
  /-- KEY[0..15] (R29). -/
  key : Vector Bool 16
  /-- M (R30). -/
  mem : Memory
  /-- WAIT: the register a pending key wait stores into (R31). -/
  wait : Option Reg
  /-- HALT: the fatal error that stopped the core (R32). -/
  halt : Option CoreError
  /-- The model's own: the open parameters, an argument of every step (00_scope.md R10, log entry 1). -/
  params : Params
  /-- The model's own: how many bytes the RNG oracle has given (42_alu.md R112, log entry 2). -/
  draws : Nat
  deriving DecidableEq, Repr

/-- What the step port and the meanings answer. -/
abbrev Result := Host.Outcome State Fault Refusal

/-- The state after power-up, which is a reset (10_state.md R37 to R47; 70_reset_and_hazards.md R159, R161). The memory
lists nothing: an unlisted address reads as the reset contents. `params` is the host's choice, which no proof can see
(log entry 1); `draws` is 0 (DESIGN CHOICE, log entry 2). -/
def State.reset : State where
  v := Vector.replicate 16 0
  i := 0
  pc := 0x200
  sp := 0
  stack := Vector.replicate 16 0
  dt := 0
  st := 0
  fb := Vector.replicate 32 (Vector.replicate 64 false)
  key := Vector.replicate 16 false
  mem := []
  wait := none
  halt := none
  params := Config.hostParams
  draws := 0

end Sys2Proof.Machine
end

