-- ==== Sys2Proof/Machine/Memory.lean ====
section
/-!
DEFINITION. The memory: the font and the reset contents (20_memory.md R61 to R63, 10_state.md R45), one-byte reads and
writes on the canonical list, and the regions built from them (20_memory.md R51 to R54).
-/

namespace Sys2Proof.Machine

/-- `FONT_BASE` (20_memory.md R62, 92_eei_decisions.md D4). -/
def fontBase : Nat := 0x000

/-- The glyphs 0 to 7, top row first (20_memory.md R63, D5). -/
def fontGlyphsLow : List Byte :=
  [0xF0, 0x90, 0x90, 0x90, 0xF0,
   0x20, 0x60, 0x20, 0x20, 0x70,
   0xF0, 0x10, 0xF0, 0x80, 0xF0,
   0xF0, 0x10, 0xF0, 0x10, 0xF0,
   0x90, 0x90, 0xF0, 0x10, 0x10,
   0xF0, 0x80, 0xF0, 0x10, 0xF0,
   0xF0, 0x80, 0xF0, 0x90, 0xF0,
   0xF0, 0x10, 0x20, 0x40, 0x40]

/-- The glyphs 8 to F. -/
def fontGlyphsHigh : List Byte :=
  [0xF0, 0x90, 0xF0, 0x90, 0xF0,
   0xF0, 0x90, 0xF0, 0x10, 0xF0,
   0xF0, 0x90, 0xF0, 0x90, 0x90,
   0xE0, 0x90, 0xE0, 0x90, 0xE0,
   0xF0, 0x80, 0x80, 0x80, 0xF0,
   0xE0, 0x90, 0x90, 0x90, 0xE0,
   0xF0, 0x80, 0xF0, 0x80, 0xF0,
   0xF0, 0x80, 0xF0, 0x80, 0x80]

/-- `FONT[0..79]` (20_memory.md R63). -/
def font : List Byte := fontGlyphsLow ++ fontGlyphsHigh

/-- What an address the memory does not list reads as: the reset contents, FONT at FONT_BASE and 0 elsewhere
(10_state.md R45). Addresses above 0xFFF do not exist, and no meaning reads them (log entry 5). -/
def Memory.unlisted (a : Nat) : Byte :=
  if fontBase ≤ a then font.getD (a - fontBase) 0 else 0

/-- `MemRead(a, 1)` (00_scope.md R15, 20_memory.md R51). -/
def Memory.read : Memory → Nat → Byte
  | [], a => Memory.unlisted a
  | (k, b) :: rest, a => if k = a then b else Memory.read rest a

/-- Put a cell in front of a list, unless it holds what its address reads as without it. -/
def Memory.consCell (a : Nat) (b : Byte) (rest : Memory) : Memory :=
  if b = Memory.unlisted a then rest else (a, b) :: rest

/-- `MemWrite(a, 1, b)`, keeping the canonical form (00_scope.md R15, 20_memory.md R51). -/
def Memory.write : Memory → Nat → Byte → Memory
  | [], a, b => Memory.consCell a b []
  | (k, c) :: rest, a, b =>
    if a < k then Memory.consCell a b ((k, c) :: rest)
    else if a = k then Memory.consCell a b rest
    else (k, c) :: Memory.write rest a b

/-- A region read of `n` bytes, in ascending order (20_memory.md R51). -/
def Memory.readBytes (m : Memory) (a : Nat) : Nat → List Byte
  | 0 => []
  | n + 1 => m.read a :: Memory.readBytes m (a + 1) n

/-- A region write, in ascending order (20_memory.md R51). -/
def Memory.writeBytes : Memory → Nat → List Byte → Memory
  | m, _, [] => m
  | m, a, b :: bs => Memory.writeBytes (m.write a b) (a + 1) bs

/-- The addresses of a list are all above `lo`, strictly rising and inside the memory, and no cell holds what its address
reads as without it. -/
def Memory.canonicalFrom : Nat → Memory → Bool
  | _, [] => true
  | lo, (k, b) :: rest =>
    decide (lo ≤ k) && decide (k < memSize) && decide (b ≠ Memory.unlisted k) && Memory.canonicalFrom (k + 1) rest

/-- The canonical form: equal memories are equal lists. -/
def Memory.wf (m : Memory) : Bool := Memory.canonicalFrom 0 m

/-- `RegionCheck(b, k)`: the error of a region of `k` bytes at `b`, if it leaves the memory. A region of no bytes makes no
access (20_memory.md R53, R54). -/
def regionCheck (b k : Nat) : Option CoreError :=
  if 0 < k ∧ 0xFFF < b + k - 1 then some (.addressOutOfRange (max b 0x1000)) else none

end Sys2Proof.Machine
end

