-- ==== Sys2Proof/Machine/Ops.lean ====
section
/-!
DEFINITION. The named operations over the state: registers, PC, the stack, raising an error and the reset that leaves the
halt (60_exceptions.md R133, R136), fetching (30_encoding.md R83) and the unknown word (R84).
-/

namespace Sys2Proof.Machine

/-! ## Registers and PC -/

/-- VF, register 15 (10_state.md R21). -/
def vF : Reg := 15

/-- `V[x]` (00_scope.md R14). -/
def State.reg (s : State) (x : Reg) : Byte := s.v[x.val]

/-- `V[x] <- b` (00_scope.md R14). No register is hard-wired (10_state.md R20). -/
def State.setReg (s : State) (x : Reg) (b : Byte) : State := { s with v := s.v.set x.val b }

/-- `pc <- target` (00_scope.md R14). -/
def State.setPc (s : State) (target : Word) : State := { s with pc := target }

/-- The default `PC <- PC + 2` (30_encoding.md R86). -/
def State.advance (s : State) : State := s.setPc (s.pc + 2)

/-- `I <- a`: I holds every 16-bit value it is given (10_state.md R23, 90_conflicts.md C3). -/
def State.setI (s : State) (a : Word) : State := { s with i := a }

/-- `DT <- b`. -/
def State.setDt (s : State) (b : Byte) : State := { s with dt := b }

/-- `ST <- b`. -/
def State.setSt (s : State) (b : Byte) : State := { s with st := b }

/-- `FB <- f`. -/
def State.setFb (s : State) (f : Framebuffer) : State := { s with fb := f }

/-- `M <- m`. -/
def State.setMem (s : State) (m : Memory) : State := { s with mem := m }

/-- `WAIT <- w`. -/
def State.setWait (s : State) (w : Option Reg) : State := { s with wait := w }

/-- `V[0..15]` all at once, for LD Vx, [I]. -/
def State.setRegs (s : State) (f : Vector Byte 16) : State := { s with v := f }

/-- `draw RNG` uses up one byte of the oracle (00_scope.md R17, D18). -/
def State.countDraw (s : State) : State := { s with draws := s.draws + 1 }

/-- `WriteWithFlag(x, result, flag)`: the result first, the flag last, so VF as destination ends with the flag
(42_alu.md R100, 10_state.md R22, 90_conflicts.md C2). -/
def State.writeWithFlag (s : State) (x : Reg) (result flag : Byte) : State := (s.setReg x result).setReg vF flag

/-- The skip rule: PC + 4 when the condition holds, else PC + 2 (41_skip.md R94). -/
def State.skip (s : State) (taken : Bool) : State := s.setPc (if taken then s.pc + 4 else s.pc + 2)

/-! ## The return stack, 10_state.md R26 -/

/-- Push: write S[SP], then increment SP. None when all 16 slots are occupied. -/
def State.push (s : State) (a : Word) : Option State :=
  if h : s.sp.val < 16 then
    some { s with stack := s.stack.set s.sp.val a, sp := ⟨s.sp.val + 1, by omega⟩ }
  else none

/-- Pop: decrement SP, then read S[SP]; the slot keeps its contents. None when no slot is occupied. -/
def State.pop (s : State) : Option (Word × State) :=
  if h : 0 < s.sp.val then
    some (s.stack[s.sp.val - 1]'(by omega), { s with sp := ⟨s.sp.val - 1, by omega⟩ })
  else none

/-! ## Taking an error, and the way out of the halt -/

/-- The state of a halt: nothing of the step is committed and HALT records the error (60_exceptions.md R133). -/
def State.halted (s : State) (e : CoreError) : State := { s with halt := some e }

/-- `raise E(info)`: the fatal error as a next state. There is no vector, no handler and no saved register; PC keeps the
address of the instruction (60_exceptions.md R133, 30_encoding.md R85). The error the step returns is the one HALT holds. -/
def raise (s : State) (e : CoreError) : Result := .next (s.halted e)

/-- The `reset` event, the only way out of a halt (60_exceptions.md R136): every piece of owned state at its reset value,
in one event, from any state. The parameters are inputs and stay (70_reset_and_hazards.md R159, R160), and the oracle goes
on with bytes it has not given (DESIGN CHOICE, log entry 2). -/
def State.resetEvent (s : State) : State := { State.reset with params := s.params, draws := s.draws }

/-- Check the region, then commit: the two phases of an instruction that accesses `k` bytes at `b` (20_memory.md R54,
30_encoding.md R85). -/
def withRegion (s : State) (b k : Nat) (commit : State) : Result :=
  match regionCheck b k with
  | some e => raise s e
  | none => .next commit

/-! ## Fetch and the unknown word -/

/-- `Fetch16(a)` (20_memory.md R56): big-endian, range-checked, with no alignment rule (R59). -/
def fetch16 (s : State) (a : Nat) : Except CoreError Word :=
  match regionCheck a 2 with
  | some e => .error e
  | none => .ok (wordOfBytes (s.mem.read a) (s.mem.read (a + 1)))

/-- The fetch of a step: the word at PC (30_encoding.md R83). -/
def fetch (s : State) : Except CoreError Word := fetch16 s s.pc.toNat

/-- `UnknownWord(w)` (30_encoding.md R84). The log entry of the lenient mode is an output of the step port
(10_state.md R33): Machine/Ports.lean gives it. -/
def unknownWord (s : State) (w : Word) : Result :=
  match s.params.unknownMode with
  | .strict => raise s (.unknownOpcode w s.pc)
  | .lenient => .next s.advance

end Sys2Proof.Machine
end

