-- ==== Sys2Proof/Machine/Operands.lean ====
section
/-!
DEFINITION. The operand forms: what the instructions read and the addresses they form, all from the state before the
instruction (00_scope.md R16).
-/

namespace Sys2Proof.Machine

/-- `zext_16(nnn)` (30_encoding.md R74). -/
def addrOfNNN (nnn : Addr12) : Word := nnn.zeroExtend 16

/-- The target of JP V0: the natural sum nnn + V0, at most 0x10FE, not reduced (40_control.md R93, D2). -/
def jumpV0Target (s : State) (nnn : Addr12) : Word := BitVec.ofNat 16 (nnn.toNat + (s.reg 0).toNat)

/-- The operand SHR and SHL shift: Vy or Vx by `SHIFT_SOURCE` (42_alu.md R109, R111; D15). -/
def shiftOperand (s : State) (x y : Reg) : Byte :=
  match s.params.shiftSource with
  | .vy => s.reg y
  | .vx => s.reg x

/-- The modulus `I_WRAP` (43_index_memory.md R113). -/
def wrapModulus : IWrap → Nat
  | .at4096 => 4096
  | .at65536 => 65536

/-- A sum written to I, reduced modulo `I_WRAP` (43_index_memory.md R113). -/
def wrapI (s : State) (sum : Nat) : Word := BitVec.ofNat 16 (sum % wrapModulus s.params.iWrap)

/-- I after LD [I], Vx or LD Vx, [I]: I + x + 1 with `LOADSTORE_INCREMENT`, else unchanged (R118, R119; D14). -/
def incrementedI (s : State) (x : Reg) : Word :=
  if s.params.loadStoreIncrement then wrapI s (s.i.toNat + x.val + 1) else s.i

/-- The base of a region I addresses, a natural number (20_memory.md R53). -/
def State.regionBase (s : State) : Nat := s.i.toNat

/-- The address of the glyph the low nibble of a byte selects (43_index_memory.md R116). -/
def glyphAddr (b : Byte) : Word := BitVec.ofNat 16 (fontBase + 5 * (b &&& 0x0F).toNat)

/-- The key the low nibble of a byte selects (46_input.md R126, 90_conflicts.md C5). -/
def keyOf (b : Byte) : Key := ⟨(b.extractLsb' 0 4).toNat, (b.extractLsb' 0 4).isLt⟩

/-- `is_pressed(k)` (60_exceptions.md R152). -/
def State.isPressed (s : State) (k : Key) : Bool := s.key[k.val]

/-- `AnyPressed()`: the lowest pressed key, or none (00_scope.md R17, 60_exceptions.md R152). -/
def State.anyPressed (s : State) : Option Key := (List.finRange 16).find? fun k => s.isPressed k

/-- A key index as a register's value (46_input.md R128). -/
def keyByte (k : Key) : Byte := BitVec.ofNat 8 k.val

/-- The three decimal digits of a byte: hundreds, tens, units (43_index_memory.md R117). -/
def bcdDigits (b : Byte) : List Byte :=
  [BitVec.ofNat 8 (b.toNat / 100), BitVec.ofNat 8 (b.toNat / 10 % 10), BitVec.ofNat 8 (b.toNat % 10)]

/-- V0..Vx inclusive, in order (43_index_memory.md R118). -/
def State.regsUpTo (s : State) (x : Reg) : List Byte := s.v.toList.take (x.val + 1)

/-- The registers after LD Vx, [I]: V0..Vx from the region at I, the others as they were (43_index_memory.md R119). -/
def State.loadedRegs (s : State) (x : Reg) : Vector Byte 16 :=
  Vector.ofFn fun k : Reg => if k.val ≤ x.val then s.mem.read (s.regionBase + k.val) else s.reg k

/-- The rows of a sprite: the `n` bytes at I (45_display.md R123). -/
def State.spriteRows (s : State) (n : Nibble) : List Byte := s.mem.readBytes s.regionBase n.toNat

end Sys2Proof.Machine
end

