-- ==== Sys2Proof/Machine/Flags.lean ====
section
/-!
DEFINITION. The arithmetic of 42_alu.md: results computed on natural numbers and narrowed once, and the flags VF receives,
always 0 or 1 (10_state.md R21, 42_alu.md R99).
-/

namespace Sys2Proof.Machine

/-- A flag as the byte VF holds. -/
def flagByte (f : Bool) : Byte := if f then 1 else 0

/-- `(a + b) mod 256` (42_alu.md R102, R107). -/
def addBytes (a b : Byte) : Byte := BitVec.ofNat 8 ((a.toNat + b.toNat) % 256)

/-- Carry out: the sum exceeds 255 (42_alu.md R107). -/
def carryOut (a b : Byte) : Byte := flagByte (decide (255 < a.toNat + b.toNat))

/-- `(a + 256 - b) mod 256` (42_alu.md R108, R110). -/
def subBytes (a b : Byte) : Byte := BitVec.ofNat 8 ((a.toNat + 256 - b.toNat) % 256)

/-- NOT borrow of a - b: a is at least b (42_alu.md R108, R110). -/
def notBorrow (a b : Byte) : Byte := flagByte (decide (b.toNat ≤ a.toNat))

/-- `src >> 1` (42_alu.md R109). -/
def shiftedRight (src : Byte) : Byte := BitVec.ofNat 8 (src.toNat >>> 1)

/-- `src[0]`, the bit SHR shifts out (42_alu.md R109). -/
def lowBit (src : Byte) : Byte := flagByte (src.getLsbD 0)

/-- `(src << 1) mod 256` (42_alu.md R111). -/
def shiftedLeft (src : Byte) : Byte := BitVec.ofNat 8 ((src.toNat <<< 1) % 256)

/-- `src[7]`, the bit SHL shifts out (42_alu.md R111). -/
def highBit (src : Byte) : Byte := flagByte (src.getLsbD 7)

/-- The byte RND draws: a free value (42_alu.md R112, log entry 2). -/
def State.randomByte (s : State) : Byte := Config.rng s.draws

end Sys2Proof.Machine
end

