-- ==== Sys2Proof/Machine/Alu.lean ====
section
/-!
DEFINITION. Register loads, arithmetic, logic, shifts and RND (42_alu.md). None accesses memory or raises an error.
-/

namespace Sys2Proof.Machine

/-- LD Vx, kk (42_alu.md R101). -/
def execLdImm (x : Reg) (kk : Byte) (s : State) : Result := .next (s.setReg x kk).advance

/-- ADD Vx, kk: no flag (42_alu.md R102). -/
def execAddImm (x : Reg) (kk : Byte) (s : State) : Result := .next (s.setReg x (addBytes (s.reg x) kk)).advance

/-- LD Vx, Vy (42_alu.md R103). -/
def execLdReg (x y : Reg) (s : State) : Result := .next (s.setReg x (s.reg y)).advance

/-- OR Vx, Vy: no flag (42_alu.md R104). -/
def execOrReg (x y : Reg) (s : State) : Result := .next (s.setReg x (s.reg x ||| s.reg y)).advance

/-- AND Vx, Vy: no flag (42_alu.md R105). -/
def execAndReg (x y : Reg) (s : State) : Result := .next (s.setReg x (s.reg x &&& s.reg y)).advance

/-- XOR Vx, Vy: no flag (42_alu.md R106). -/
def execXorReg (x y : Reg) (s : State) : Result := .next (s.setReg x (s.reg x ^^^ s.reg y)).advance

/-- ADD Vx, Vy: VF = carry (42_alu.md R107). -/
def execAddReg (x y : Reg) (s : State) : Result :=
  .next (s.writeWithFlag x (addBytes (s.reg x) (s.reg y)) (carryOut (s.reg x) (s.reg y))).advance

/-- SUB Vx, Vy: VF = NOT borrow (42_alu.md R108). -/
def execSub (x y : Reg) (s : State) : Result :=
  .next (s.writeWithFlag x (subBytes (s.reg x) (s.reg y)) (notBorrow (s.reg x) (s.reg y))).advance

/-- SHR Vx, Vy: VF = the bit shifted out (42_alu.md R109). -/
def execShr (x y : Reg) (s : State) : Result :=
  .next (s.writeWithFlag x (shiftedRight (shiftOperand s x y)) (lowBit (shiftOperand s x y))).advance

/-- SUBN Vx, Vy: VF = NOT borrow of Vy - Vx (42_alu.md R110). -/
def execSubn (x y : Reg) (s : State) : Result :=
  .next (s.writeWithFlag x (subBytes (s.reg y) (s.reg x)) (notBorrow (s.reg y) (s.reg x))).advance

/-- SHL Vx, Vy: VF = the bit shifted out (42_alu.md R111). -/
def execShl (x y : Reg) (s : State) : Result :=
  .next (s.writeWithFlag x (shiftedLeft (shiftOperand s x y)) (highBit (shiftOperand s x y))).advance

/-- RND Vx, kk: one draw of the oracle, whatever kk is (42_alu.md R112, D18). -/
def execRnd (x : Reg) (kk : Byte) (s : State) : Result :=
  .next ((s.setReg x (s.randomByte &&& kk)).countDraw).advance

end Sys2Proof.Machine
end

