-- ==== Sys2Proof/Machine/Control.lean ====
section
/-!
DEFINITION. Control transfer: SYS, RET, JP, CALL, JP V0 (40_control.md).
-/

namespace Sys2Proof.Machine

/-- SYS nnn: a no-op (40_control.md R89, D1). The address is unused. -/
def execSys (_nnn : Addr12) (s : State) : Result := .next s.advance

/-- RET: pop into PC, or StackUnderflow at SP = 0 (40_control.md R90). -/
def execRet (s : State) : Result :=
  match s.pop with
  | none => raise s (.stackUnderflow s.pc)
  | some (a, t) => .next (t.setPc a)

/-- JP nnn (40_control.md R91). -/
def execJp (nnn : Addr12) (s : State) : Result := .next (s.setPc (addrOfNNN nnn))

/-- CALL nnn: push PC + 2 and jump, or StackOverflow at SP = 16 (40_control.md R92). -/
def execCall (nnn : Addr12) (s : State) : Result :=
  match s.push (s.pc + 2) with
  | none => raise s (.stackOverflow s.pc)
  | some t => .next (t.setPc (addrOfNNN nnn))

/-- JP V0, nnn: always V0; the sum is not reduced (40_control.md R93, D2). -/
def execJpV0 (nnn : Addr12) (s : State) : Result := .next (s.setPc (jumpV0Target s nnn))

end Sys2Proof.Machine
end

