-- ==== Sys2Proof/Machine/Display.lean ====
section
/-!
DEFINITION. The display: CLS and DRW (45_display.md).
-/

namespace Sys2Proof.Machine

/-- A display with every pixel clear. -/
def Framebuffer.clear : Framebuffer := Vector.replicate 32 (Vector.replicate 64 false)

/-- `FB[x, y]`: column x, row y (10_state.md R28). -/
def Framebuffer.pixel (f : Framebuffer) (x : Fin 64) (y : Fin 32) : Bool := (f[y.val])[x.val]

/-- `F[x, y] <- F[x, y] ^ 1`. -/
def Framebuffer.flip (f : Framebuffer) (x : Fin 64) (y : Fin 32) : Framebuffer :=
  f.set y.val ((f[y.val]).set x.val (!(f[y.val])[x.val]))

/-- Columns wrap modulo 64 (45_display.md R123). -/
def wrapColumn (x : Nat) : Fin 64 := ⟨x % 64, Nat.mod_lt _ (by decide)⟩

/-- Rows wrap modulo 32 (45_display.md R123). -/
def wrapRow (y : Nat) : Fin 32 := ⟨y % 32, Nat.mod_lt _ (by decide)⟩

/-- The working copy of FB and the collision so far, as DRW's loop carries them (45_display.md R124). -/
structure Blit where
  fb : Framebuffer
  collision : Bool
  deriving DecidableEq, Repr

/-- One set sprite bit at a pixel: note a set-to-clear transition, then invert the pixel (45_display.md R124). -/
def blitPixel (px : Fin 64) (py : Fin 32) (b : Blit) : Blit :=
  { fb := b.fb.flip px py, collision := b.collision || b.fb.pixel px py }

/-- Column `c` of a sprite row: bit 7 - c, bit 7 leftmost (45_display.md R123, D6). -/
def spriteBit (row : Byte) (c : Nat) : Bool := row.getLsbD (7 - c)

/-- One column of one sprite row drawn at column `x0 + c` of display row `y`. -/
def blitColumn (row : Byte) (x0 y : Nat) (b : Blit) (c : Nat) : Blit :=
  if spriteBit row c then blitPixel (wrapColumn (x0 + c)) (wrapRow y) b else b

/-- One sprite row: its columns 0 to 7. -/
def blitRow (row : Byte) (x0 y : Nat) (b : Blit) : Blit := (List.range 8).foldl (blitColumn row x0 y) b

/-- The sprite's rows in order, the first at display row `y` (45_display.md R124). -/
def blitRows : List Byte → Nat → Nat → Blit → Blit
  | [], _, _, b => b
  | row :: rows, x0, y, b => blitRows rows x0 (y + 1) (blitRow row x0 y b)

/-- The whole blit of DRW Vx, Vy, n from the state before it (45_display.md R124). -/
def State.blit (s : State) (x y : Reg) (n : Nibble) : Blit :=
  blitRows (s.spriteRows n) ((s.reg x).toNat % 64) ((s.reg y).toNat % 32) { fb := s.fb, collision := false }

/-- CLS: every pixel clear, VF unchanged (45_display.md R125). -/
def execCls (s : State) : Result := .next (s.setFb Framebuffer.clear).advance

/-- DRW Vx, Vy, n: check the region, XOR the sprite, then VF = collision (45_display.md R124). With n = 0 nothing is read
and nothing can fail. -/
def execDrw (x y : Reg) (n : Nibble) (s : State) : Result :=
  withRegion s s.regionBase n.toNat
    ((s.setFb (s.blit x y n).fb).setReg vF (flagByte (s.blit x y n).collision)).advance

end Sys2Proof.Machine
end

