-- ==== Sys2Proof/Machine/Index.lean ====
section
/-!
DEFINITION. The index register and the memory transfers (43_index_memory.md). Every region is checked whole before any
write (20_memory.md R54).
-/

namespace Sys2Proof.Machine

/-- LD I, nnn (43_index_memory.md R114). -/
def execLdI (nnn : Addr12) (s : State) : Result := .next (s.setI (addrOfNNN nnn)).advance

/-- ADD I, Vx: modulo `I_WRAP`, VF unchanged (43_index_memory.md R115). -/
def execAddI (x : Reg) (s : State) : Result := .next (s.setI (wrapI s (s.i.toNat + (s.reg x).toNat))).advance

/-- LD F, Vx: the glyph of the low nibble (43_index_memory.md R116). -/
def execLdF (x : Reg) (s : State) : Result := .next (s.setI (glyphAddr (s.reg x))).advance

/-- LD B, Vx: hundreds, tens and units at I, I+1, I+2 (43_index_memory.md R117). -/
def execLdB (x : Reg) (s : State) : Result :=
  withRegion s s.regionBase 3 (s.setMem (s.mem.writeBytes s.regionBase (bcdDigits (s.reg x)))).advance

/-- LD [I], Vx: V0..Vx to I..I+x, then the optional increment of I (43_index_memory.md R118). -/
def execLdMemVx (x : Reg) (s : State) : Result :=
  withRegion s s.regionBase (x.val + 1)
    ((s.setMem (s.mem.writeBytes s.regionBase (s.regsUpTo x))).setI (incrementedI s x)).advance

/-- LD Vx, [I]: V0..Vx from I..I+x, then the optional increment of I (43_index_memory.md R119). -/
def execLdVxMem (x : Reg) (s : State) : Result :=
  withRegion s s.regionBase (x.val + 1) ((s.setRegs (s.loadedRegs x)).setI (incrementedI s x)).advance

end Sys2Proof.Machine
end

