-- ==== Sys2Proof/Machine/Input.lean ====
section
/-!
DEFINITION. Key input: SKP, SKNP, LD Vx, K, the poll of a pending key wait, and the host's latch (46_input.md,
60_exceptions.md R151).
-/

namespace Sys2Proof.Machine

/-- SKP Vx (46_input.md R126). -/
def execSkp (x : Reg) (s : State) : Result := .next (s.skip (s.isPressed (keyOf (s.reg x))))

/-- SKNP Vx (46_input.md R127). -/
def execSknp (x : Reg) (s : State) : Result := .next (s.skip (!s.isPressed (keyOf (s.reg x))))

/-- LD Vx, K: the lowest pressed key at once, or the wait begins with PC kept (46_input.md R128, D13, C4). -/
def execLdVxK (x : Reg) (s : State) : Result :=
  match s.anyPressed with
  | some k => .next (s.setReg x (keyByte k)).advance
  | none => .next (s.setWait (some x))

/-- `PollKey(x)`: a step while WAIT = some x (46_input.md R129). It fetches nothing and raises nothing. -/
def pollKey (x : Reg) (s : State) : Result :=
  match s.anyPressed with
  | some k => .next ((s.setReg x (keyByte k)).setWait none).advance
  | none => .next s

/-- `KEY[k] <- pressed`, the effect of set_key (60_exceptions.md R151). -/
def State.setKey (s : State) (k : Key) (pressed : Bool) : State := { s with key := s.key.set k.val pressed }

end Sys2Proof.Machine
end

