-- ==== Sys2Proof/Machine/Skip.lean ====
section
/-!
DEFINITION. The conditional skips SE and SNE (41_skip.md).
-/

namespace Sys2Proof.Machine

/-- SE Vx, kk (41_skip.md R95). -/
def execSeImm (x : Reg) (kk : Byte) (s : State) : Result := .next (s.skip (s.reg x == kk))

/-- SNE Vx, kk (41_skip.md R96). -/
def execSneImm (x : Reg) (kk : Byte) (s : State) : Result := .next (s.skip (s.reg x != kk))

/-- SE Vx, Vy (41_skip.md R97). -/
def execSeReg (x y : Reg) (s : State) : Result := .next (s.skip (s.reg x == s.reg y))

/-- SNE Vx, Vy (41_skip.md R98). -/
def execSneReg (x y : Reg) (s : State) : Result := .next (s.skip (s.reg x != s.reg y))

end Sys2Proof.Machine
end

