-- ==== Sys2Proof/Machine/Timers.lean ====
section
/-!
DEFINITION. The timer transfers (44_timers.md) and the tick event of the timers' own clock (60_exceptions.md R145).
-/

namespace Sys2Proof.Machine

/-- LD Vx, DT (44_timers.md R120). -/
def execLdVxDT (x : Reg) (s : State) : Result := .next (s.setReg x s.dt).advance

/-- LD DT, Vx (44_timers.md R121). -/
def execLdDTVx (x : Reg) (s : State) : Result := .next (s.setDt (s.reg x)).advance

/-- LD ST, Vx (44_timers.md R122). -/
def execLdSTVx (x : Reg) (s : State) : Result := .next (s.setSt (s.reg x)).advance

/-- One count toward 0, never below it (60_exceptions.md R145). -/
def countDown (b : Byte) : Byte := if 0 < b.toNat then BitVec.ofNat 8 (b.toNat - 1) else 0

/-- The `tick` event: it acts in every core state and raises nothing (60_exceptions.md R145, R146). -/
def State.tick (s : State) : State := (s.setDt (countDown s.dt)).setSt (countDown s.st)

/-- The sound output is active exactly while ST is not 0 (60_exceptions.md R154). -/
def State.soundActive (s : State) : Bool := s.st != 0

end Sys2Proof.Machine
end

