-- ==== Sys2Proof/Machine/Step.lean ====
section
/-!
DEFINITION. The step event: the halt, the pending wait, fetch, decode and execute, in the priority of 60_exceptions.md R135
(30_encoding.md R81).
-/

namespace Sys2Proof.Machine

/-- Execute what a word decodes to (30_encoding.md R81, R84). -/
def runDecoded (s : State) : Decoded → Result
  | .instr i => exec i s
  | .unknown w => unknownWord s w

/-- Fetch, decode and execute: a step of a core that is neither halted nor waiting (30_encoding.md R81, R83). -/
def runFetched (s : State) : Result :=
  match fetch s with
  | .error e => raise s e
  | .ok w => runDecoded s (decode w)

/-- `Step()` (30_encoding.md R81). A halted core changes nothing (R82) and a waiting one polls (46_input.md R129). The error
the port returns is the one HALT holds after the step: Machine/Ports.lean reads it there. -/
def step (s : State) : Host.Outcome State Fault Refusal :=
  match s.halt with
  | some _ => .next s
  | none =>
    match s.wait with
    | some x => pollKey x s
    | none => runFetched s

/-- The state in which the very next step fetches and runs the table's word `w`: its two bytes at PC, high byte first, no
halt and no wait pending, and PC at the entry point where it could not be fetched from (log entry 7). -/
def State.withFetchWord (s : State) (nbits w : Nat) : State :=
  let pc := if s.pc.toNat ≤ 0xFFE then s.pc else 0x200
  let word := BitVec.ofNat 16 (w % 2 ^ nbits)
  { s with
    pc := pc
    wait := none
    halt := none
    mem := s.mem.writeBytes pc.toNat [highByte word, lowByte word] }

end Sys2Proof.Machine
end

