-- ==== Sys2Proof/Machine/Asm.lean ====
section
/-!
DEFINITION. The assembler syntax (30_encoding.md R87, R88): mnemonics, operand forms, which lines spell an instruction, and
the text of a line. The letter case and the number of hexadecimal digits printed are log entry 8.
-/

namespace Sys2Proof

/-- The mnemonics of the syntax column of 30_encoding.md R76. LD, ADD, SE, SNE and JP are told apart by their operands. -/
inductive AsmName where
  | sys | cls | ret | jp | call | se | sne | ld | add | or_ | and_ | xor_ | sub | shr | subn | shl | rnd | drw | skp | sknp
  deriving DecidableEq, Repr

/-- The operand forms of 30_encoding.md R87. -/
inductive AsmOperand where
  | reg (x : Reg)     -- V0..VF
  | num (n : Nat)     -- a number
  | index             -- I
  | atIndex           -- [I]
  | dt                -- DT
  | st                -- ST
  | key               -- K
  | font              -- F
  | bcd               -- B
  deriving DecidableEq, Repr

/-- A line: a mnemonic and its operands, destination first (30_encoding.md R87). -/
structure AsmLine where
  name : AsmName
  operands : List AsmOperand
  deriving DecidableEq, Repr

/-- The line the spec writes an instruction as: the syntax column of 30_encoding.md R76. -/
def disassemble : Instr → AsmLine
  | .sys nnn => ⟨.sys, [.num nnn.toNat]⟩
  | .cls => ⟨.cls, []⟩
  | .ret => ⟨.ret, []⟩
  | .jp nnn => ⟨.jp, [.num nnn.toNat]⟩
  | .call nnn => ⟨.call, [.num nnn.toNat]⟩
  | .seImm x kk => ⟨.se, [.reg x, .num kk.toNat]⟩
  | .sneImm x kk => ⟨.sne, [.reg x, .num kk.toNat]⟩
  | .seReg x y => ⟨.se, [.reg x, .reg y]⟩
  | .ldImm x kk => ⟨.ld, [.reg x, .num kk.toNat]⟩
  | .addImm x kk => ⟨.add, [.reg x, .num kk.toNat]⟩
  | .ldReg x y => ⟨.ld, [.reg x, .reg y]⟩
  | .orReg x y => ⟨.or_, [.reg x, .reg y]⟩
  | .andReg x y => ⟨.and_, [.reg x, .reg y]⟩
  | .xorReg x y => ⟨.xor_, [.reg x, .reg y]⟩
  | .addReg x y => ⟨.add, [.reg x, .reg y]⟩
  | .sub x y => ⟨.sub, [.reg x, .reg y]⟩
  | .shr x y => ⟨.shr, [.reg x, .reg y]⟩
  | .subn x y => ⟨.subn, [.reg x, .reg y]⟩
  | .shl x y => ⟨.shl, [.reg x, .reg y]⟩
  | .sneReg x y => ⟨.sne, [.reg x, .reg y]⟩
  | .ldI nnn => ⟨.ld, [.index, .num nnn.toNat]⟩
  | .jpV0 nnn => ⟨.jp, [.reg 0, .num nnn.toNat]⟩
  | .rnd x kk => ⟨.rnd, [.reg x, .num kk.toNat]⟩
  | .drw x y n => ⟨.drw, [.reg x, .reg y, .num n.toNat]⟩
  | .skp x => ⟨.skp, [.reg x]⟩
  | .sknp x => ⟨.sknp, [.reg x]⟩
  | .ldVxDT x => ⟨.ld, [.reg x, .dt]⟩
  | .ldVxK x => ⟨.ld, [.reg x, .key]⟩
  | .ldDTVx x => ⟨.ld, [.dt, .reg x]⟩
  | .ldSTVx x => ⟨.ld, [.st, .reg x]⟩
  | .addI x => ⟨.add, [.index, .reg x]⟩
  | .ldF x => ⟨.ld, [.font, .reg x]⟩
  | .ldB x => ⟨.ld, [.bcd, .reg x]⟩
  | .ldMemVx x => ⟨.ld, [.atIndex, .reg x]⟩
  | .ldVxMem x => ⟨.ld, [.reg x, .atIndex]⟩

/-- A number that fits an address immediate. -/
def asmAddr (n : Nat) : Option Addr12 := if n < 4096 then some (BitVec.ofNat 12 n) else none

/-- A number that fits a byte immediate. -/
def asmByte (n : Nat) : Option Byte := if n < 256 then some (BitVec.ofNat 8 n) else none

/-- A number that fits a nibble immediate. -/
def asmNibble (n : Nat) : Option Nibble := if n < 16 then some (BitVec.ofNat 4 n) else none

/-- LD, by its operand shape. -/
def assembleLd : List AsmOperand → Option Instr
  | [.reg x, .num n] => (asmByte n).map (Instr.ldImm x)
  | [.reg x, .reg y] => some (.ldReg x y)
  | [.index, .num n] => (asmAddr n).map Instr.ldI
  | [.reg x, .dt] => some (.ldVxDT x)
  | [.reg x, .key] => some (.ldVxK x)
  | [.dt, .reg x] => some (.ldDTVx x)
  | [.st, .reg x] => some (.ldSTVx x)
  | [.font, .reg x] => some (.ldF x)
  | [.bcd, .reg x] => some (.ldB x)
  | [.atIndex, .reg x] => some (.ldMemVx x)
  | [.reg x, .atIndex] => some (.ldVxMem x)
  | _ => none

/-- The instruction a line spells. An operand shape not in the table spells none; `SHR Vx` and `SHL Vx` stand for y = 0
(30_encoding.md R88, D30). -/
def assemble (l : AsmLine) : Option Instr :=
  match l.name, l.operands with
  | .sys, [.num n] => (asmAddr n).bind fun nnn => if (Instr.sys nnn).wf then some (.sys nnn) else none
  | .cls, [] => some .cls
  | .ret, [] => some .ret
  | .jp, [.num n] => (asmAddr n).map Instr.jp
  | .jp, [.reg x, .num n] => if x = 0 then (asmAddr n).map Instr.jpV0 else none
  | .call, [.num n] => (asmAddr n).map Instr.call
  | .se, [.reg x, .num n] => (asmByte n).map (Instr.seImm x)
  | .se, [.reg x, .reg y] => some (.seReg x y)
  | .sne, [.reg x, .num n] => (asmByte n).map (Instr.sneImm x)
  | .sne, [.reg x, .reg y] => some (.sneReg x y)
  | .ld, ops => assembleLd ops
  | .add, [.reg x, .num n] => (asmByte n).map (Instr.addImm x)
  | .add, [.reg x, .reg y] => some (.addReg x y)
  | .add, [.index, .reg x] => some (.addI x)
  | .or_, [.reg x, .reg y] => some (.orReg x y)
  | .and_, [.reg x, .reg y] => some (.andReg x y)
  | .xor_, [.reg x, .reg y] => some (.xorReg x y)
  | .sub, [.reg x, .reg y] => some (.sub x y)
  | .shr, [.reg x, .reg y] => some (.shr x y)
  | .shr, [.reg x] => some (.shr x 0)
  | .subn, [.reg x, .reg y] => some (.subn x y)
  | .shl, [.reg x, .reg y] => some (.shl x y)
  | .shl, [.reg x] => some (.shl x 0)
  | .rnd, [.reg x, .num n] => (asmByte n).map (Instr.rnd x)
  | .drw, [.reg x, .reg y, .num n] => (asmNibble n).map (Instr.drw x y)
  | .skp, [.reg x] => some (.skp x)
  | .sknp, [.reg x] => some (.sknp x)
  | _, _ => none

/-! ## Text -/

/-- The mnemonics as written. -/
def asmNames : List (String × AsmName) :=
  [("SYS", .sys), ("CLS", .cls), ("RET", .ret), ("JP", .jp), ("CALL", .call), ("SE", .se), ("SNE", .sne), ("LD", .ld),
   ("ADD", .add), ("OR", .or_)] ++
  [("AND", .and_), ("XOR", .xor_), ("SUB", .sub), ("SHR", .shr), ("SUBN", .subn), ("SHL", .shl), ("RND", .rnd),
   ("DRW", .drw), ("SKP", .skp), ("SKNP", .sknp)]

/-- The special operands as written (30_encoding.md R87). -/
def asmSpecials : List (String × AsmOperand) :=
  [("I", .index), ("[I]", .atIndex), ("DT", .dt), ("ST", .st), ("K", .key), ("F", .font), ("B", .bcd)]

/-- A hexadecimal digit. -/
def hexDigit (n : Nat) : Char := "0123456789ABCDEF".toList.getD n '0'

/-- A number below 4096 in hexadecimal, with no leading zeros. -/
def hexText (n : Nat) : List Char :=
  if n < 16 then [hexDigit n]
  else if n < 256 then [hexDigit (n / 16), hexDigit (n % 16)]
  else [hexDigit (n / 256), hexDigit (n / 16 % 16), hexDigit (n % 16)]

/-- An operand as written. -/
def AsmOperand.text : AsmOperand → List Char
  | .reg x => ['V', hexDigit x.val]
  | .num n => '0' :: 'x' :: hexText n
  | .index => "I".toList
  | .atIndex => "[I]".toList
  | .dt => "DT".toList
  | .st => "ST".toList
  | .key => "K".toList
  | .font => "F".toList
  | .bcd => "B".toList

/-- A mnemonic as written. -/
def AsmName.text (m : AsmName) : List Char :=
  match asmNames.find? fun p => p.2 == m with
  | some p => p.1.toList
  | none => []

/-- Operands as written: comma-separated, with the optional space after a comma (30_encoding.md R87). -/
def operandsText : List AsmOperand → List Char
  | [] => []
  | [o] => o.text
  | o :: os => o.text ++ ',' :: ' ' :: operandsText os

/-- A line as written. -/
def AsmLine.text (l : AsmLine) : List Char :=
  match l.operands with
  | [] => l.name.text
  | os => l.name.text ++ ' ' :: operandsText os

/-- The value of a hexadecimal digit. -/
def hexValue (c : Char) : Option Nat :=
  if '0' ≤ c ∧ c ≤ '9' then some (c.toNat - 48)
  else if 'A' ≤ c ∧ c ≤ 'F' then some (c.toNat - 55)
  else if 'a' ≤ c ∧ c ≤ 'f' then some (c.toNat - 87)
  else none

/-- The value of digits in a base, after the value so far; none for a character that is no digit of the base. -/
def digitsValue (base : Nat) : Nat → List Char → Option Nat
  | acc, [] => some acc
  | acc, c :: cs =>
    match hexValue c with
    | some d => if d < base then digitsValue base (acc * base + d) cs else none
    | none => none

/-- A number: `0x` and hexadecimal digits, or decimal digits (30_encoding.md R87, 00_scope.md R12). -/
def parseNumber : List Char → Option Nat
  | '0' :: 'x' :: c :: cs => digitsValue 16 0 (c :: cs)
  | c :: cs => digitsValue 10 0 (c :: cs)
  | [] => none

/-- An operand from its text. -/
def parseOperand (t : List Char) : Option AsmOperand :=
  match asmSpecials.find? fun p => p.1.toList == t with
  | some p => some p.2
  | none =>
    match t with
    | ['V', c] => (hexValue c).bind fun n => if h : n < 16 then some (.reg ⟨n, h⟩) else none
    | _ => (parseNumber t).map AsmOperand.num

/-- The pieces between commas. -/
def splitCommas : List Char → List (List Char)
  | [] => [[]]
  | c :: cs =>
    match splitCommas cs with
    | [] => [[c]]
    | w :: ws => if c = ',' then [] :: w :: ws else (c :: w) :: ws

/-- The text after an optional space. -/
def dropSpace : List Char → List Char
  | ' ' :: cs => cs
  | cs => cs

/-- A line from its text. -/
def parseLine (t : List Char) : Option AsmLine :=
  match asmNames.find? fun p => p.1.toList == t.takeWhile (· != ' ') with
  | none => none
  | some p =>
    match t.dropWhile (· != ' ') with
    | [] => some ⟨p.2, []⟩
    | _ :: rest => ((splitCommas rest).mapM fun o => parseOperand (dropSpace o)).map fun os => ⟨p.2, os⟩

/-- The instruction a text spells, if it spells one. -/
def parseInstr (t : List Char) : Option Instr := (parseLine t).bind assemble

/-- The text of an instruction. -/
def Instr.text (i : Instr) : List Char := (disassemble i).text

end Sys2Proof
end

