-- ==== Sys2Proof/Machine/Ports.lean ====
section
/-!
DEFINITION. The host ports as atomic events (60_exceptions.md R149), with their results, the host contract
(92_eei_decisions.md section 2), and a run of any interleaving of events (00_scope.md R8).
-/

namespace Sys2Proof.Machine

/-- The numeric code of an error (60_exceptions.md R130, D10). -/
def CoreError.code : CoreError → Nat
  | .addressOutOfRange _ => 1
  | .stackOverflow _ => 2
  | .stackUnderflow _ => 3
  | .unknownOpcode _ _ => 4
  | .romTooLarge _ => 5

/-- An entry of the lenient mode's log: the word and its address (30_encoding.md R84, D10). -/
structure LogEntry where
  word : Word
  pc : Word
  deriving DecidableEq, Repr

/-- The log output of a step from `s`: an unknown word met in lenient mode (30_encoding.md R84; 10_state.md R33, D27). -/
def State.stepLog (s : State) : Option LogEntry :=
  match s.halt, s.wait, s.params.unknownMode, fetch s with
  | none, none, .lenient, .ok w =>
    match decode w with
    | .instr _ => none
    | .unknown u => some { word := u, pc := s.pc }
  | _, _, _, _ => none

/-- What a port answers (60_exceptions.md R149). -/
inductive Reply where
  /-- `Ok` of a step, with its log output if any. -/
  | stepOk (log : Option LogEntry)
  /-- `Err(e)` of a step: the core is halted with `e`. -/
  | stepErr (e : CoreError)
  /-- `Ok` of load_rom. -/
  | loadOk
  /-- `RomTooLarge` of load_rom: the load is rejected and nothing is changed. -/
  | loadErr (e : CoreError)
  /-- A port with no result: tick_timers, set_key, reset, the choice of parameters. -/
  | done
  /-- The snapshot of get_framebuffer. -/
  | framebuffer (f : Framebuffer)
  /-- The value of get_sound_timer or get_delay_timer. -/
  | timer (b : Byte)
  deriving DecidableEq, Repr

/-- The result of the step port, from the state before and the state after: `Err(e)` exactly when HALT holds `e`
(30_encoding.md R81, R82; 60_exceptions.md R133). -/
def stepReply (s t : State) : Reply :=
  match t.halt with
  | some e => .stepErr e
  | none => .stepOk s.stepLog

/-- Where a run stands in the host contract since the last reset (20_memory.md R64, 70_reset_and_hazards.md R160). -/
inductive Phase where
  | fresh    -- no ROM loaded, no step taken
  | loaded   -- a ROM loaded, no step taken
  | running  -- a step taken
  deriving DecidableEq, Repr

/-- The core with its place in the host contract. -/
structure System where
  core : State
  phase : Phase
  deriving DecidableEq, Repr

/-- Creation with the parameters the host chose: power-up is a reset (70_reset_and_hazards.md R161, R163). -/
def System.powerUp (p : Params) : System := { core := { State.reset with params := p }, phase := .fresh }

/-- One event at the ports: the choice of parameters, and the ports of 60_exceptions.md R149. -/
inductive Event where
  | configure (p : Params)
  | reset
  | loadRom (bytes : List Byte)
  | step
  | tick
  | setKey (index : Nat) (pressed : Bool)
  | getFramebuffer
  | getSoundTimer
  | getDelayTimer
  deriving DecidableEq, Repr

/-- `load_rom`: the bytes verbatim from 0x200 (20_memory.md R64). -/
def State.loadRom (s : State) (bytes : List Byte) : State := s.setMem (s.mem.writeBytes programBase bytes)

/-- What an event answers: the system after it and the port's result, or a refusal outside the host contract. -/
abbrev EventResult := Host.Outcome (System × Reply) Fault Refusal

/-- The choice of parameters: only between a reset and the first step after it (70_reset_and_hazards.md R160, D28). -/
def System.configure (c : System) (p : Params) : EventResult :=
  match c.phase with
  | .running => .refused .parametersOutsideContract
  | .fresh => .next ({ c with core := { c.core with params := p } }, .done)
  | .loaded => .next ({ c with core := { c.core with params := p } }, .done)

/-- `load_rom`: at most one successful call after a reset and before the first step; too long a ROM is rejected and does
not count (20_memory.md R64, R65; D21). -/
def System.load (c : System) (bytes : List Byte) : EventResult :=
  match c.phase with
  | .fresh =>
    if maxRomSize < bytes.length then .next (c, .loadErr (.romTooLarge bytes.length))
    else .next ({ core := c.core.loadRom bytes, phase := .loaded }, .loadOk)
  | .loaded => .refused .loadRomOutsideContract
  | .running => .refused .loadRomOutsideContract

/-- The step port (30_encoding.md R81). -/
def System.step (c : System) : EventResult :=
  match Sys2Proof.Machine.step c.core with
  | .next t => .next ({ core := t, phase := .running }, stepReply c.core t)
  | .fault f => .fault f
  | .refused r => .refused r

/-- `set_key`: an index outside 0..15 is outside the host contract (60_exceptions.md R151, D23). -/
def System.setKey (c : System) (index : Nat) (pressed : Bool) : EventResult :=
  if h : index < 16 then .next ({ c with core := c.core.setKey ⟨index, h⟩ pressed }, .done)
  else .refused .keyIndexOutsideContract

/-- One event. Each is atomic, and ticks, keys, reset and the read ports act in every core state (00_scope.md R8;
60_exceptions.md R146, R149 to R151). -/
def System.event (c : System) : Event → EventResult
  | .configure p => c.configure p
  | .reset => .next ({ core := c.core.resetEvent, phase := .fresh }, .done)
  | .loadRom bytes => c.load bytes
  | .step => c.step
  | .tick => .next ({ c with core := c.core.tick }, .done)
  | .setKey index pressed => c.setKey index pressed
  | .getFramebuffer => .next (c, .framebuffer c.core.fb)
  | .getSoundTimer => .next (c, .timer c.core.st)
  | .getDelayTimer => .next (c, .timer c.core.dt)

/-- A run of events in the order the host chooses: any number of each in any order (00_scope.md R8, 60_exceptions.md R143).
It ends at the first refusal. -/
def System.run (c : System) : List Event → Host.Outcome System Fault Refusal
  | [] => .next c
  | e :: es =>
    match c.event e with
    | .next (d, _) => System.run d es
    | .fault f => .fault f
    | .refused r => .refused r

end Sys2Proof.Machine
end

