-- ==== Sys2Proof/Safety.lean ====
section
/-!
DEFINITION. What counts as a sound state and as the end of a run, in the terms the statements use: the invariant of the
core, the end states of 70_reset_and_hazards.md R173, and the frames.
-/

namespace Sys2Proof.Machine

/-! ## The end states, 70_reset_and_hazards.md R173 -/

/-- Faulted: HALT holds an error. -/
def State.Faulted (s : State) : Prop := s.halt.isSome = true

/-- Parked: neither halted nor waiting, and the word at PC is a jump to PC. -/
def State.Parked (s : State) : Prop :=
  s.halt = none ∧ s.wait = none ∧
    ∃ nnn, fetch s = .ok (wordNNN 0x1 nnn) ∧ s.pc = addrOfNNN nnn

/-- Waiting: a key wait is pending and no key is pressed. -/
def State.Waiting (s : State) : Prop := s.halt = none ∧ (∃ x, s.wait = some x) ∧ s.anyPressed = none

/-! ## The invariant of the core -/

/-- An error a halt can hold: never RomTooLarge, and an out-of-range address is at least 0x1000 (60_exceptions.md R130,
R133, R137). -/
def CoreError.Fatal : CoreError → Prop
  | .addressOutOfRange a => 0x1000 ≤ a
  | .stackOverflow _ => True
  | .stackUnderflow _ => True
  | .unknownOpcode _ _ => True
  | .romTooLarge _ => False

/-- The invariant every event keeps: the memory is canonical; PC is at most 0x10FE (10_state.md R24, 30_encoding.md R86);
every return address is at most 0x1000 (40_control.md R92); with `I_WRAP` = 4096, I is at most 0xFFF (43_index_memory.md
R113); a halt holds a fatal error; and a pending wait stands at a fetchable PC, outside a halt, whose word is the LD Vx, K
of that register (46_input.md R128, R129). -/
structure State.Inv (s : State) : Prop where
  memWf : s.mem.wf = true
  pcBound : s.pc.toNat ≤ 0x10FE
  stackBound : ∀ k (h : k < 16), (s.stack[k]'h).toNat ≤ 0x1000
  indexBound : s.params.iWrap = .at4096 → s.i.toNat ≤ 0xFFF
  haltFatal : ∀ e, s.halt = some e → e.Fatal
  waitAtKeyLoad : ∀ x, s.wait = some x → s.halt = none ∧ fetch s = .ok (encode (.ldVxK x))

/-- The invariant of a run: the core's, and before the first step since a reset the core stands at the entry point with I
and the return stack as reset left them, neither halted nor waiting. -/
structure System.Inv (c : System) : Prop where
  coreInv : c.core.Inv
  beforeStep : c.phase ≠ .running → c.core.i = 0 ∧ c.core.pc = 0x200 ∧ c.core.halt = none ∧ c.core.wait = none

/-! ## Frames -/

/-- Every byte of memory reads as before. -/
def SameMemory (s t : State) : Prop := ∀ a, t.mem.read a = s.mem.read a

/-- Every byte of memory outside the `k` bytes at `b` reads as before. -/
def SameMemoryOutside (b k : Nat) (s t : State) : Prop := ∀ a, (a < b ∨ b + k ≤ a) → t.mem.read a = s.mem.read a

/-- Every general register the list does not name is as before. -/
def SameRegsExcept (xs : List Reg) (s t : State) : Prop := ∀ r, r ∉ xs → t.reg r = s.reg r

/-- The stack and its pointer are as before. -/
def SameStack (s t : State) : Prop := t.sp = s.sp ∧ t.stack = s.stack

/-- Both timers are as before. -/
def SameTimers (s t : State) : Prop := t.dt = s.dt ∧ t.st = s.st

/-- The latch, the parameters and the count of draws are as before, and neither a halt nor a wait came about or ended. -/
def SameControl (s t : State) : Prop :=
  t.key = s.key ∧ t.params = s.params ∧ t.draws = s.draws ∧ t.halt = s.halt ∧ t.wait = s.wait

/-- All but the general registers and PC is as before. -/
def OnlyRegsAndPc (s t : State) : Prop :=
  t.i = s.i ∧ SameStack s t ∧ SameTimers s t ∧ t.fb = s.fb ∧ SameMemory s t ∧ SameControl s t

/-- All but PC is as before. -/
def OnlyPc (s t : State) : Prop := SameRegsExcept [] s t ∧ OnlyRegsAndPc s t

/-- All but I and PC is as before. -/
def OnlyIndexAndPc (s t : State) : Prop :=
  SameRegsExcept [] s t ∧ SameStack s t ∧ SameTimers s t ∧ t.fb = s.fb ∧ SameMemory s t ∧ SameControl s t

/-- All but I, PC and the memory is as before. -/
def OnlyIndexMemoryAndPc (s t : State) : Prop :=
  SameRegsExcept [] s t ∧ SameStack s t ∧ SameTimers s t ∧ t.fb = s.fb ∧ SameControl s t

/-! ## Which instructions do what, for the rules about the whole machine -/

/-- The instructions that write a flag to VF (10_state.md R21). -/
def writesFlag : Instr → Bool
  | .addReg _ _ => true
  | .sub _ _ => true
  | .shr _ _ => true
  | .subn _ _ => true
  | .shl _ _ => true
  | .drw _ _ _ => true
  | _ => false

/-- The instruction may write register `r` as a result: its destination Vx, or the range V0..Vx of LD Vx, [I]
(10_state.md R20, R21). -/
def writesResult (r : Reg) : Instr → Bool
  | .ldImm x _ => r == x
  | .addImm x _ => r == x
  | .ldReg x _ => r == x
  | .orReg x _ => r == x
  | .andReg x _ => r == x
  | .xorReg x _ => r == x
  | .addReg x _ => r == x
  | .sub x _ => r == x
  | .shr x _ => r == x
  | .subn x _ => r == x
  | .shl x _ => r == x
  | .rnd x _ => r == x
  | .ldVxDT x => r == x
  | .ldVxK x => r == x
  | .ldVxMem x => decide (r ≤ x)
  | _ => false

/-- The instruction, in this state, avoids every parameter but `UNKNOWN_MODE` (70_reset_and_hazards.md R169). -/
def QuirkFree (s : State) : Instr → Prop
  | .shr x y => x = y
  | .shl x y => x = y
  | .addI x => s.i.toNat + (s.reg x).toNat ≤ 0xFFF
  | .ldMemVx _ => False
  | .ldVxMem _ => False
  | _ => True

/-- The sprite of DRW Vx, Vy, n has a set bit at a pixel: row r and column c of it, wrapped, bit 7 leftmost
(45_display.md R123). -/
def SpriteSets (s : State) (x y : Reg) (n : Nibble) (px : Fin 64) (py : Fin 32) : Prop :=
  ∃ r c, r < n.toNat ∧ c < 8 ∧ px.val = ((s.reg x).toNat % 64 + c) % 64 ∧ py.val = ((s.reg y).toNat % 32 + r) % 32 ∧
    (s.mem.read (s.regionBase + r)).getLsbD (7 - c) = true

/-- Calls executed one after another, each from the state the one before it left. -/
def callAll : List Addr12 → State → Result
  | [], s => .next s
  | nnn :: rest, s =>
    match exec (.call nnn) s with
    | .next t => callAll rest t
    | .fault f => .fault f
    | .refused r => .refused r

/-- `n` ticks. -/
def ticks : Nat → State → State
  | 0, s => s
  | n + 1, s => ticks n s.tick

end Sys2Proof.Machine
end

