-- ==== Sys2Proof/Certificates/Slice0/Obligations.lean ====
section
/-!
DEFINITION. The statements for the provers. Each docstring names the rule of the spec, or the spec's decision or the log
entry where the statement rests on one.
-/

open Sys2Proof Sys2Proof.Machine

/-! ## Encoding -/

/-- At least one word of each of the sixteen opcode families, written out from 30_encoding.md R76, decodes to its
instruction, and five words decode to none (the encodings are decision D3). -/
def Obligations.SampleWordsDecode : Prop :=
  decode 0x00E0 = .instr .cls ∧ decode 0x00EE = .instr .ret ∧ decode 0x00E1 = .instr (.sys 0x0E1) ∧
  decode 0x1204 = .instr (.jp 0x204) ∧ decode 0x2210 = .instr (.call 0x210) ∧ decode 0x3210 = .instr (.seImm 2 0x10) ∧
  decode 0x4F21 = .instr (.sneImm 15 0x21) ∧ decode 0x5AB0 = .instr (.seReg 10 11) ∧ decode 0x6005 = .instr (.ldImm 0 5) ∧
  decode 0x7302 = .instr (.addImm 3 2) ∧ decode 0x9CD0 = .instr (.sneReg 12 13) ∧
  decode 0x8125 = .instr (.sub 1 2) ∧ decode 0x812E = .instr (.shl 1 2) ∧ decode 0xA300 = .instr (.ldI 0x300) ∧
  decode 0xB123 = .instr (.jpV0 0x123) ∧ decode 0xC30F = .instr (.rnd 3 0x0F) ∧ decode 0xD125 = .instr (.drw 1 2 5) ∧
  decode 0xE39E = .instr (.skp 3) ∧ decode 0xF415 = .instr (.ldDTVx 4) ∧ decode 0xF165 = .instr (.ldVxMem 1) ∧
  decode 0x5011 = .unknown 0x5011 ∧ decode 0x8008 = .unknown 0x8008 ∧ decode 0x9AB1 = .unknown 0x9AB1 ∧
  decode 0xE09F = .unknown 0xE09F ∧ decode 0xFFFF = .unknown 0xFFFF

/-- Every well-formed instruction decodes from its own word, with every operand at every value (30_encoding.md section 2,
decision D3). -/
def Obligations.DecodeOfEncode : Prop := ∀ i : Instr, i.wf = true → decode (encode i) = .instr i

/-- Re-encoding what a recognised word decodes to reproduces the word, the decoded term is well formed, and an unknown word
is named by itself (30_encoding.md R77, R78, decision D3). -/
def Obligations.EncodeOfDecode : Prop :=
  (∀ (w : Word) (i : Instr), decode w = .instr i → encode i = w ∧ i.wf = true) ∧
  (∀ w u : Word, decode w = .unknown u → u = w)

/-- The unknown words are exactly those of the table of 30_encoding.md R79 (a derived rule). -/
def Obligations.UnknownWordsAreTheListed : Prop :=
  ∀ w : Word, decode w = .unknown w ↔
    (w.toNat / 4096 = 0x5 ∧ w.toNat % 16 ≠ 0) ∨
    (w.toNat / 4096 = 0x8 ∧ w.toNat % 16 ∈ [0x8, 0x9, 0xA, 0xB, 0xC, 0xD, 0xF]) ∨
    (w.toNat / 4096 = 0x9 ∧ w.toNat % 16 ≠ 0) ∨
    (w.toNat / 4096 = 0xE ∧ w.toNat % 256 ∉ [0x9E, 0xA1]) ∨
    (w.toNat / 4096 = 0xF ∧ w.toNat % 256 ∉ [0x07, 0x0A, 0x15, 0x18, 0x1E, 0x29, 0x33, 0x55, 0x65])

/-- A word matches the row it decodes to, and two rows one word matches are the same row or both of family 0
(30_encoding.md R76, R77, decision D3). -/
def Obligations.OpcodeRowsDoNotOverlap : Prop :=
  (∀ (w : Word) (i : Instr), decode w = .instr i → w &&& rowMask i = rowMatch i) ∧
  (∀ (w : Word) (i j : Instr), w &&& rowMask i = rowMatch i → w &&& rowMask j = rowMatch j →
    (rowMask i = rowMask j ∧ rowMatch i = rowMatch j) ∨ w.toNat / 4096 = 0x0)

/-- The line the spec writes an instruction as spells that instruction, and the short SHR and SHL stand for y = 0
(30_encoding.md R88, decision D30). -/
def Obligations.AssemblyLinesSpellInstructions : Prop :=
  (∀ i : Instr, i.wf = true → assemble (disassemble i) = some i) ∧
  (∀ x : Reg, assemble ⟨.shr, [.reg x]⟩ = some (.shr x 0) ∧ assemble ⟨.shl, [.reg x]⟩ = some (.shl x 0))

/-! ## The step cycle -/

/-- When the two bytes at PC decode to an instruction, the step is the meaning of that instruction, with nothing around it
(30_encoding.md R81). -/
def Obligations.StepRunsDecodedInstruction : Prop :=
  ∀ (s : State) (i : Instr), s.halt = none → s.wait = none → s.pc.toNat ≤ 0xFFE →
    decode (wordOfBytes (s.mem.read s.pc.toNat) (s.mem.read (s.pc.toNat + 1))) = .instr i → step s = exec i s

/-- A step while halted returns the same error and changes nothing of the core (30_encoding.md R82, decision D11). -/
def Obligations.HaltedStepRepeatsError : Prop :=
  ∀ (c : System) (e : CoreError), c.core.halt = some e →
    c.event .step = .next ({ core := c.core, phase := .running }, .stepErr e)

/-- A step at a PC above 0xFFE halts with the address max(PC, 0x1000) and changes nothing else, and the port returns the
error (30_encoding.md R83, decisions D7 and D11). -/
def Obligations.FetchOutOfRangeHalts : Prop :=
  ∀ c : System, c.core.halt = none → c.core.wait = none → 0xFFE < c.core.pc.toNat →
    c.event .step = .next
      ({ core := { c.core with halt := some (.addressOutOfRange (max c.core.pc.toNat 0x1000)) }, phase := .running },
        .stepErr (.addressOutOfRange (max c.core.pc.toNat 0x1000)))

/-- An unknown word at PC: in strict mode UnknownOpcode(w, PC) halts the core, in lenient mode PC advances by 2, nothing
else changes and the step answers Ok with the log entry (30_encoding.md R84, decisions D10, D11, D17, D27). -/
def Obligations.UnknownWordFollowsMode : Prop :=
  ∀ (c : System) (w : Word), c.core.halt = none → c.core.wait = none → c.core.pc.toNat ≤ 0xFFE →
    w = wordOfBytes (c.core.mem.read c.core.pc.toNat) (c.core.mem.read (c.core.pc.toNat + 1)) → decode w = .unknown w →
    (c.core.params.unknownMode = .strict → c.event .step = .next
      ({ core := { c.core with halt := some (.unknownOpcode w c.core.pc) }, phase := .running },
        .stepErr (.unknownOpcode w c.core.pc))) ∧
    (c.core.params.unknownMode = .lenient → c.event .step = .next
      ({ core := { c.core with pc := c.core.pc + 2 }, phase := .running },
        .stepOk (some { word := w, pc := c.core.pc })))

/-- A step while a key wait is pending: with a key pressed the lowest goes to Vx, the wait ends and PC advances by 2; with
none nothing changes (46_input.md R129, decision D13). -/
def Obligations.PollTakesLowestKey : Prop :=
  ∀ (s : State) (x : Reg), s.halt = none → s.wait = some x →
    (∀ k : Key, s.key[k.val] = true → (∀ j : Key, j < k → s.key[j.val] = false) →
      ∃ t, step s = .next t ∧ (t.reg x).toNat = k.val ∧ t.wait = none ∧ t.pc = s.pc + 2 ∧ SameRegsExcept [x] s t ∧
        t.i = s.i ∧ SameStack s t ∧ SameTimers s t ∧ t.fb = s.fb ∧ SameMemory s t ∧ t.key = s.key ∧
        t.params = s.params ∧ t.draws = s.draws ∧ t.halt = none) ∧
    ((∀ k : Key, s.key[k.val] = false) → step s = .next s)

/-- Every instruction steps in every state: no meaning refuses or faults, and no step does (60_exceptions.md R141,
decision D26; that an error is a next state is log entry 4). -/
def Obligations.EveryInstructionSteps : Prop :=
  (∀ (i : Instr) (s : State), ∃ t, exec i s = .next t) ∧ (∀ s : State, ∃ t, step s = .next t)

/-- A step that raises an error leaves everything as it was but HALT (30_encoding.md R85, 60_exceptions.md R132, R133,
decision D11). -/
def Obligations.RaisedErrorCommitsNothing : Prop :=
  (∀ (i : Instr) (s t : State), exec i s = .next t → t.halt ≠ s.halt → t = { s with halt := t.halt }) ∧
  (∀ s t : State, step s = .next t → t.halt ≠ s.halt → t = { s with halt := t.halt })

/-- The only instructions that raise an error, when, and with which info (60_exceptions.md R130, R131, a derived rule;
decisions D9, D10, D11). -/
def Obligations.OnlyListedInstructionsRaise : Prop :=
  ∀ (i : Instr) (s t : State) (e : CoreError), s.halt = none → exec i s = .next t → t.halt = some e →
    (i = .ret ∧ s.sp = 0 ∧ e = .stackUnderflow s.pc) ∨
    ((∃ nnn, i = .call nnn) ∧ s.sp = 16 ∧ e = .stackOverflow s.pc) ∨
    (∃ k, ((∃ x y n, i = .drw x y n ∧ k = n.toNat) ∨ (∃ x, i = .ldB x ∧ k = 3) ∨
        (∃ x, (i = .ldMemVx x ∨ i = .ldVxMem x) ∧ k = x.val + 1)) ∧
      0 < k ∧ 0xFFF < s.i.toNat + k - 1 ∧ e = .addressOutOfRange (max s.i.toNat 0x1000))

/-! ## Reset -/

/-- What reset leaves, of the values the source states (10_state.md R37 to R40, R42 to R44). -/
def Obligations.ResetStateValues : Prop :=
  (∀ r : Reg, State.reset.reg r = 0) ∧ State.reset.i = 0 ∧ State.reset.pc = 0x200 ∧ State.reset.sp = 0 ∧
  State.reset.dt = 0 ∧ State.reset.st = 0 ∧
  (∀ (x : Fin 64) (y : Fin 32), State.reset.fb.pixel x y = false) ∧ (∀ k : Key, State.reset.key[k.val] = false)

/-- What reset leaves, of the values the spec decides: the stack, the wait, the halt and the 4096 bytes of memory with the
font (10_state.md R41, R45 to R47, 20_memory.md R62, R63; decisions D4, D5, D11, D13, D19, D20). -/
def Obligations.ResetMemoryAndHiddenState : Prop :=
  (∀ k (h : k < 16), State.reset.stack[k]'h = 0) ∧ State.reset.wait = none ∧ State.reset.halt = none ∧
  (∀ a, a < 80 → State.reset.mem.read a = font.getD a 0) ∧ (∀ a, 80 ≤ a → a < 0x1000 → State.reset.mem.read a = 0) ∧
  State.reset.mem.readBytes 0x032 5 = [0xF0, 0x90, 0xF0, 0x90, 0x90]

/-- The reset event from any state, halted or not: every piece of owned state at its reset value and the parameters kept
(70_reset_and_hazards.md R159, R160; decisions D11, D20, D28). -/
def Obligations.ResetEventRestoresState : Prop :=
  ∀ c : System, ∃ d, c.event .reset = .next (d, .done) ∧ d.phase = .fresh ∧ d.core.params = c.core.params ∧
    d.core.v = State.reset.v ∧ d.core.i = State.reset.i ∧ d.core.pc = State.reset.pc ∧ d.core.sp = State.reset.sp ∧
    d.core.stack = State.reset.stack ∧ d.core.dt = State.reset.dt ∧ d.core.st = State.reset.st ∧
    d.core.fb = State.reset.fb ∧ d.core.key = State.reset.key ∧ (∀ a, d.core.mem.read a = State.reset.mem.read a) ∧
    d.core.wait = none ∧ d.core.halt = none

/-! ## Control transfer -/

/-- SYS only advances PC (40_control.md R89, decision D1). -/
def Obligations.SysOnlyAdvances : Prop :=
  ∀ (nnn : Addr12) (s : State), ∃ t, exec (.sys nnn) s = .next t ∧ t.pc = s.pc + 2 ∧ OnlyPc s t

/-- JP sets PC to its operand and changes nothing else (40_control.md R91). -/
def Obligations.JumpSetsPc : Prop :=
  ∀ (nnn : Addr12) (s : State), ∃ t, exec (.jp nnn) s = .next t ∧ t.pc.toNat = nnn.toNat ∧ OnlyPc s t

/-- JP V0 sets PC to the natural sum of its operand and V0, unreduced (40_control.md R93, decision D2). -/
def Obligations.JumpV0AddsV0 : Prop :=
  ∀ (nnn : Addr12) (s : State), ∃ t, exec (.jpV0 nnn) s = .next t ∧ t.pc.toNat = nnn.toNat + (s.reg 0).toNat ∧ OnlyPc s t

/-- CALL with a free slot pushes PC + 2 and jumps; with none it halts with StackOverflow(PC) (40_control.md R92; decisions
D11, D19). -/
def Obligations.CallPushesReturnAddress : Prop :=
  ∀ (nnn : Addr12) (s : State),
    (∀ h : s.sp.val < 16, ∃ t, exec (.call nnn) s = .next t ∧ t.stack[s.sp.val]'h = s.pc + 2 ∧
      (∀ k (hk : k < 16), k ≠ s.sp.val → t.stack[k]'hk = s.stack[k]'hk) ∧ t.sp.val = s.sp.val + 1 ∧
      t.pc.toNat = nnn.toNat ∧ SameRegsExcept [] s t ∧ t.i = s.i ∧ SameTimers s t ∧ t.fb = s.fb ∧ SameMemory s t ∧
      SameControl s t) ∧
    (s.sp.val = 16 → exec (.call nnn) s = .next { s with halt := some (.stackOverflow s.pc) })

/-- RET with an occupied slot pops it into PC and leaves the slots; with none it halts with StackUnderflow(PC)
(40_control.md R90; decisions D11, D19). -/
def Obligations.RetPopsReturnAddress : Prop :=
  ∀ s : State,
    (∀ h : 0 < s.sp.val, ∃ t, exec .ret s = .next t ∧ t.pc = s.stack[s.sp.val - 1]'(by omega) ∧
      t.sp.val = s.sp.val - 1 ∧ t.stack = s.stack ∧ SameRegsExcept [] s t ∧ t.i = s.i ∧ SameTimers s t ∧
      t.fb = s.fb ∧ SameMemory s t ∧ SameControl s t) ∧
    (s.sp.val = 0 → exec .ret s = .next { s with halt := some (.stackUnderflow s.pc) })

/-- CALL followed by RET returns to the instruction after the CALL, with SP as before (95_test_vectors.md S5). -/
def Obligations.CallThenRetReturns : Prop :=
  ∀ (nnn : Addr12) (s : State), s.sp.val < 16 →
    ∃ t u, exec (.call nnn) s = .next t ∧ exec .ret t = .next u ∧ u.pc = s.pc + 2 ∧ u.sp = s.sp ∧
      (∀ k (hk : k < 16), k ≠ s.sp.val → u.stack[k]'hk = s.stack[k]'hk) ∧ SameRegsExcept [] s u ∧ u.i = s.i ∧
      SameTimers s u ∧ u.fb = s.fb ∧ SameMemory s u ∧ SameControl s u

/-- Sixteen nested calls succeed and the seventeenth overflows (95_test_vectors.md S6; decision D11 for the halt). -/
def Obligations.SeventeenthCallOverflows : Prop :=
  ∀ (targets : List Addr12) (s : State), s.sp = 0 → targets.length = 16 →
    ∃ t, callAll targets s = .next t ∧ t.sp = 16 ∧ t.halt = s.halt ∧
      ∀ nnn, exec (.call nnn) t = .next { t with halt := some (.stackOverflow t.pc) }

/-! ## Skips -/

/-- SE and SNE with a byte (41_skip.md R95, R96). -/
def Obligations.SkipOnByte : Prop :=
  ∀ (x : Reg) (kk : Byte) (s : State),
    (∃ t, exec (.seImm x kk) s = .next t ∧ t.pc = (if s.reg x = kk then s.pc + 4 else s.pc + 2) ∧ OnlyPc s t) ∧
    (∃ t, exec (.sneImm x kk) s = .next t ∧ t.pc = (if s.reg x ≠ kk then s.pc + 4 else s.pc + 2) ∧ OnlyPc s t)

/-- SE and SNE with two registers; x = y always and never skips (41_skip.md R97, R98). -/
def Obligations.SkipOnRegister : Prop :=
  ∀ (x y : Reg) (s : State),
    (∃ t, exec (.seReg x y) s = .next t ∧ t.pc = (if s.reg x = s.reg y then s.pc + 4 else s.pc + 2) ∧ OnlyPc s t) ∧
    (∃ t, exec (.sneReg x y) s = .next t ∧ t.pc = (if s.reg x ≠ s.reg y then s.pc + 4 else s.pc + 2) ∧ OnlyPc s t)

/-- SKP and SKNP: the low nibble of Vx selects the key (46_input.md R126, R127). -/
def Obligations.SkipOnKey : Prop :=
  ∀ (x : Reg) (s : State) (k : Key), k.val = (s.reg x).toNat % 16 →
    (∃ t, exec (.skp x) s = .next t ∧ t.pc = (if s.key[k.val] = true then s.pc + 4 else s.pc + 2) ∧ OnlyPc s t) ∧
    (∃ t, exec (.sknp x) s = .next t ∧ t.pc = (if s.key[k.val] = false then s.pc + 4 else s.pc + 2) ∧ OnlyPc s t)

/-! ## Loads, arithmetic, logic, shifts -/

/-- LD Vx, kk and LD Vx, Vy (42_alu.md R101, R103). -/
def Obligations.LoadByteAndCopyRegister : Prop :=
  (∀ (x : Reg) (kk : Byte) (s : State), ∃ t, exec (.ldImm x kk) s = .next t ∧ t.reg x = kk ∧ t.pc = s.pc + 2 ∧
    SameRegsExcept [x] s t ∧ OnlyRegsAndPc s t) ∧
  (∀ (x y : Reg) (s : State), ∃ t, exec (.ldReg x y) s = .next t ∧ t.reg x = s.reg y ∧ t.pc = s.pc + 2 ∧
    SameRegsExcept [x] s t ∧ OnlyRegsAndPc s t)

/-- ADD Vx, kk wraps modulo 256 and changes no flag (42_alu.md R102). -/
def Obligations.AddByteKeepsFlag : Prop :=
  ∀ (x : Reg) (kk : Byte) (s : State), ∃ t, exec (.addImm x kk) s = .next t ∧
    (t.reg x).toNat = ((s.reg x).toNat + kk.toNat) % 256 ∧ t.pc = s.pc + 2 ∧ SameRegsExcept [x] s t ∧ OnlyRegsAndPc s t

/-- OR, AND and XOR, bit by bit, and no flag (42_alu.md R104, R105, R106). -/
def Obligations.LogicKeepsFlag : Prop :=
  ∀ (x y : Reg) (s : State),
    (∃ t, exec (.orReg x y) s = .next t ∧
      (∀ b, b < 8 → (t.reg x).getLsbD b = ((s.reg x).getLsbD b || (s.reg y).getLsbD b)) ∧ t.pc = s.pc + 2 ∧
      SameRegsExcept [x] s t ∧ OnlyRegsAndPc s t) ∧
    (∃ t, exec (.andReg x y) s = .next t ∧
      (∀ b, b < 8 → (t.reg x).getLsbD b = ((s.reg x).getLsbD b && (s.reg y).getLsbD b)) ∧ t.pc = s.pc + 2 ∧
      SameRegsExcept [x] s t ∧ OnlyRegsAndPc s t) ∧
    (∃ t, exec (.xorReg x y) s = .next t ∧
      (∀ b, b < 8 → (t.reg x).getLsbD b = Bool.xor ((s.reg x).getLsbD b) ((s.reg y).getLsbD b)) ∧ t.pc = s.pc + 2 ∧
      SameRegsExcept [x] s t ∧ OnlyRegsAndPc s t)

/-- ADD Vx, Vy: the sum modulo 256 in Vx unless it is VF, and VF = carry for every x (42_alu.md R107). -/
def Obligations.AddSetsCarry : Prop :=
  ∀ (x y : Reg) (s : State), ∃ t, exec (.addReg x y) s = .next t ∧
    (x ≠ vF → (t.reg x).toNat = ((s.reg x).toNat + (s.reg y).toNat) % 256) ∧
    (t.reg vF).toNat = (if (s.reg x).toNat + (s.reg y).toNat > 255 then 1 else 0) ∧ t.pc = s.pc + 2 ∧
    SameRegsExcept [x, vF] s t ∧ OnlyRegsAndPc s t

/-- SUB and SUBN: the difference modulo 256 in Vx unless it is VF, and VF = NOT borrow for every x (42_alu.md R108,
R110). -/
def Obligations.SubtractSetsNotBorrow : Prop :=
  ∀ (x y : Reg) (s : State),
    (∃ t, exec (.sub x y) s = .next t ∧
      (x ≠ vF → (t.reg x).toNat = ((s.reg x).toNat + 256 - (s.reg y).toNat) % 256) ∧
      (t.reg vF).toNat = (if (s.reg x).toNat ≥ (s.reg y).toNat then 1 else 0) ∧ t.pc = s.pc + 2 ∧
      SameRegsExcept [x, vF] s t ∧ OnlyRegsAndPc s t) ∧
    (∃ t, exec (.subn x y) s = .next t ∧
      (x ≠ vF → (t.reg x).toNat = ((s.reg y).toNat + 256 - (s.reg x).toNat) % 256) ∧
      (t.reg vF).toNat = (if (s.reg y).toNat ≥ (s.reg x).toNat then 1 else 0) ∧ t.pc = s.pc + 2 ∧
      SameRegsExcept [x, vF] s t ∧ OnlyRegsAndPc s t)

/-- SHR and SHL shift the operand `SHIFT_SOURCE` names by one, and VF is the bit shifted out, for every x and for both
settings (42_alu.md R109, R111; the parameter is an argument, log entry 1). -/
def Obligations.ShiftSetsBitOut : Prop :=
  ∀ (x y : Reg) (s : State) (src : Nat),
    src = (if s.params.shiftSource = .vy then (s.reg y).toNat else (s.reg x).toNat) →
    (∃ t, exec (.shr x y) s = .next t ∧ (x ≠ vF → (t.reg x).toNat = src / 2) ∧ (t.reg vF).toNat = src % 2 ∧
      t.pc = s.pc + 2 ∧ SameRegsExcept [x, vF] s t ∧ OnlyRegsAndPc s t) ∧
    (∃ t, exec (.shl x y) s = .next t ∧ (x ≠ vF → (t.reg x).toNat = src * 2 % 256) ∧ (t.reg vF).toNat = src / 128 ∧
      t.pc = s.pc + 2 ∧ SameRegsExcept [x, vF] s t ∧ OnlyRegsAndPc s t)

/-- VF is written by the flag-writing instructions alone, but for the instructions whose result register it is; and the flag
is 0 or 1 (10_state.md section 2 on VF). -/
def Obligations.OnlyFlagWritersTouchVf : Prop :=
  ∀ (i : Instr) (s t : State), s.halt = none → exec i s = .next t →
    (writesFlag i = false → writesResult vF i = false → t.reg vF = s.reg vF) ∧
    (writesFlag i = true → t.halt = none → t.reg vF = 0 ∨ t.reg vF = 1)

/-- RND draws one byte of the oracle, whatever kk is, and stores it masked: the oracle's byte is a free value (42_alu.md
R112, decision D18, log entry 2). -/
def Obligations.RandomByteMasked : Prop :=
  ∀ (x : Reg) (kk : Byte) (s : State), ∃ t, exec (.rnd x kk) s = .next t ∧ t.reg x = (Config.rng s.draws &&& kk) ∧
    t.draws = s.draws + 1 ∧ t.pc = s.pc + 2 ∧ SameRegsExcept [x] s t ∧ t.i = s.i ∧ SameStack s t ∧ SameTimers s t ∧
    t.fb = s.fb ∧ SameMemory s t ∧ t.key = s.key ∧ t.params = s.params ∧ t.halt = s.halt ∧ t.wait = s.wait

/-! ## Index and memory -/

/-- LD I, nnn, and ADD I, Vx modulo `I_WRAP` with VF unchanged (43_index_memory.md R114, R115). -/
def Obligations.IndexLoadAndAdd : Prop :=
  (∀ (nnn : Addr12) (s : State), ∃ t, exec (.ldI nnn) s = .next t ∧ t.i.toNat = nnn.toNat ∧ t.pc = s.pc + 2 ∧
    OnlyIndexAndPc s t) ∧
  (∀ (x : Reg) (s : State), ∃ t, exec (.addI x) s = .next t ∧
    t.i.toNat = (s.i.toNat + (s.reg x).toNat) % (if s.params.iWrap = .at4096 then 4096 else 65536) ∧
    t.pc = s.pc + 2 ∧ OnlyIndexAndPc s t)

/-- LD F, Vx: the glyph of the low nibble, 5 bytes each from FONT_BASE (43_index_memory.md R116, decision D4). -/
def Obligations.GlyphAddressSelected : Prop :=
  ∀ (x : Reg) (s : State), ∃ t, exec (.ldF x) s = .next t ∧ t.i.toNat = fontBase + 5 * ((s.reg x).toNat % 16) ∧
    t.pc = s.pc + 2 ∧ OnlyIndexAndPc s t

/-- LD B, Vx: the three digits at I, I+1, I+2 and nothing else, or the halt with nothing written (43_index_memory.md R117;
decisions D9, D10, D11). -/
def Obligations.BcdDigitsStored : Prop :=
  ∀ (x : Reg) (s : State), s.mem.wf = true →
    (s.i.toNat + 2 ≤ 0xFFF → ∃ t, exec (.ldB x) s = .next t ∧
      (t.mem.read s.i.toNat).toNat = (s.reg x).toNat / 100 ∧
      (t.mem.read (s.i.toNat + 1)).toNat = (s.reg x).toNat / 10 % 10 ∧
      (t.mem.read (s.i.toNat + 2)).toNat = (s.reg x).toNat % 10 ∧
      SameMemoryOutside s.i.toNat 3 s t ∧ t.i = s.i ∧ t.pc = s.pc + 2 ∧ OnlyIndexMemoryAndPc s t) ∧
    (0xFFF < s.i.toNat + 2 →
      exec (.ldB x) s = .next { s with halt := some (.addressOutOfRange (max s.i.toNat 0x1000)) })

/-- LD [I], Vx: V0..Vx at I..I+x and nothing else, I advanced by x + 1 modulo `I_WRAP` where the increment is on, or the
halt with nothing written (43_index_memory.md R118; decisions D9, D10, D11, D14). -/
def Obligations.RegistersStored : Prop :=
  ∀ (x : Reg) (s : State), s.mem.wf = true →
    (s.i.toNat + x.val ≤ 0xFFF → ∃ t, exec (.ldMemVx x) s = .next t ∧
      (∀ k : Reg, k ≤ x → t.mem.read (s.i.toNat + k.val) = s.reg k) ∧
      SameMemoryOutside s.i.toNat (x.val + 1) s t ∧
      t.i.toNat = (if s.params.loadStoreIncrement then
        (s.i.toNat + x.val + 1) % (if s.params.iWrap = .at4096 then 4096 else 65536) else s.i.toNat) ∧
      t.pc = s.pc + 2 ∧ OnlyIndexMemoryAndPc s t) ∧
    (0xFFF < s.i.toNat + x.val →
      exec (.ldMemVx x) s = .next { s with halt := some (.addressOutOfRange (max s.i.toNat 0x1000)) })

/-- LD Vx, [I]: V0..Vx from I..I+x, the other registers and the memory as before, I advanced as for the store, or the halt
with no register written (43_index_memory.md R119; decisions D9, D10, D11, D14). -/
def Obligations.RegistersLoaded : Prop :=
  ∀ (x : Reg) (s : State),
    (s.i.toNat + x.val ≤ 0xFFF → ∃ t, exec (.ldVxMem x) s = .next t ∧
      (∀ k : Reg, k ≤ x → t.reg k = s.mem.read (s.i.toNat + k.val)) ∧ (∀ k : Reg, x < k → t.reg k = s.reg k) ∧
      t.i.toNat = (if s.params.loadStoreIncrement then
        (s.i.toNat + x.val + 1) % (if s.params.iWrap = .at4096 then 4096 else 65536) else s.i.toNat) ∧
      t.pc = s.pc + 2 ∧ SameStack s t ∧ SameTimers s t ∧ t.fb = s.fb ∧ SameMemory s t ∧ SameControl s t) ∧
    (0xFFF < s.i.toNat + x.val →
      exec (.ldVxMem x) s = .next { s with halt := some (.addressOutOfRange (max s.i.toNat 0x1000)) })

/-- Registers stored with LD [I], Vx come back with LD Vx, [I], whatever happened to the registers in between
(43_index_memory.md sections on Fx55 and Fx65). -/
def Obligations.StoreThenLoadRestores : Prop :=
  ∀ (x : Reg) (s : State), s.mem.wf = true → s.i.toNat + x.val ≤ 0xFFF →
    ∃ t, exec (.ldMemVx x) s = .next t ∧
      ∀ u : State, u.mem = t.mem → u.i = s.i →
        ∃ w, exec (.ldVxMem x) u = .next w ∧ ∀ k : Reg, k ≤ x → w.reg k = s.reg k

/-- A store over the next instruction is seen by the very next fetch: LD [I], Vx at PC with I = PC + 2 and x at least 1
makes the next step run what V0 and V1 spell (20_memory.md R70, decision D24). -/
def Obligations.StoreSeenByNextFetch : Prop :=
  ∀ (x : Reg) (s : State), s.mem.wf = true → s.halt = none → s.wait = none → 1 ≤ x.val →
    s.pc.toNat + 2 + x.val ≤ 0xFFF → s.i.toNat = s.pc.toNat + 2 →
    decode (wordOfBytes (s.mem.read s.pc.toNat) (s.mem.read (s.pc.toNat + 1))) = .instr (.ldMemVx x) →
    ∃ t, step s = .next t ∧
      ∀ i : Instr, decode (wordOfBytes (s.reg 0) (s.reg 1)) = .instr i → step t = exec i t

/-! ## Timers -/

/-- The three timer transfers (44_timers.md R120, R121, R122); and after LD ST, Vx the sound output is active exactly when Vx
is not 0, which the spec marks as derived from R122 (the gating itself is 60_exceptions.md R154). -/
def Obligations.TimerTransfers : Prop :=
  ∀ (x : Reg) (s : State),
    (∃ t, exec (.ldVxDT x) s = .next t ∧ t.reg x = s.dt ∧ t.pc = s.pc + 2 ∧ SameRegsExcept [x] s t ∧ OnlyRegsAndPc s t) ∧
    (∃ t, exec (.ldDTVx x) s = .next t ∧ t.dt = s.reg x ∧ t.st = s.st ∧ t.pc = s.pc + 2 ∧ SameRegsExcept [] s t ∧
      t.i = s.i ∧ SameStack s t ∧ t.fb = s.fb ∧ SameMemory s t ∧ SameControl s t) ∧
    (∃ t, exec (.ldSTVx x) s = .next t ∧ t.st = s.reg x ∧ (t.soundActive = true ↔ s.reg x ≠ 0) ∧ t.dt = s.dt ∧
      t.pc = s.pc + 2 ∧ SameRegsExcept [] s t ∧ t.i = s.i ∧ SameStack s t ∧ t.fb = s.fb ∧ SameMemory s t ∧
      SameControl s t)

/-- The tick event decrements both timers, floored at 0, and changes nothing else (60_exceptions.md R145), in every core
state, halted and waiting included (R146, which is the spec's decision D12, log entry 6). -/
def Obligations.TickCountsDown : Prop :=
  ∀ c : System, ∃ d, c.event .tick = .next (d, .done) ∧
    d.core.dt.toNat = (if c.core.dt.toNat > 0 then c.core.dt.toNat - 1 else 0) ∧
    d.core.st.toNat = (if c.core.st.toNat > 0 then c.core.st.toNat - 1 else 0) ∧
    d = { c with core := { c.core with dt := d.core.dt, st := d.core.st } }

/-- After N ticks each timer is down by min(N, its value) (60_exceptions.md R147, whose clause on ST is derived). -/
def Obligations.TicksNeverPassZero : Prop :=
  ∀ (n : Nat) (s : State), (ticks n s).dt.toNat = s.dt.toNat - min n s.dt.toNat ∧
    (ticks n s).st.toNat = s.st.toNat - min n s.st.toNat

/-! ## Display -/

/-- CLS clears every pixel and leaves VF and all else (45_display.md R125). -/
def Obligations.ClearScreenClearsAll : Prop :=
  ∀ s : State, ∃ t, exec .cls s = .next t ∧ (∀ x y, t.fb.pixel x y = false) ∧ t.pc = s.pc + 2 ∧
    SameRegsExcept [] s t ∧ t.i = s.i ∧ SameStack s t ∧ SameTimers s t ∧ SameMemory s t ∧ SameControl s t

/-- DRW inverts exactly the pixels under a set sprite bit, and VF is 1 exactly when some pixel went from set to clear
(45_display.md R123, R124, decision D6). -/
def Obligations.DrawXorsSprite : Prop :=
  ∀ (x y : Reg) (n : Nibble) (s : State), s.i.toNat + n.toNat ≤ 0x1000 →
    ∃ t, exec (.drw x y n) s = .next t ∧
      (∀ px py, (SpriteSets s x y n px py → t.fb.pixel px py = !s.fb.pixel px py) ∧
        (¬ SpriteSets s x y n px py → t.fb.pixel px py = s.fb.pixel px py)) ∧
      ((∃ px py, s.fb.pixel px py = true ∧ t.fb.pixel px py = false) → t.reg vF = 1) ∧
      ((∀ px py, s.fb.pixel px py = true → t.fb.pixel px py = true) → t.reg vF = 0) ∧
      t.pc = s.pc + 2 ∧ SameRegsExcept [vF] s t ∧ t.i = s.i ∧ SameStack s t ∧ SameTimers s t ∧ SameMemory s t ∧
      SameControl s t

/-- DRW with a row outside memory halts with nothing drawn; with n = 0 it draws nothing, sets VF = 0 and cannot fail,
whatever I is (45_display.md R124; decisions D9, D10, D11). -/
def Obligations.DrawOutOfRangeOrEmpty : Prop :=
  ∀ (x y : Reg) (n : Nibble) (s : State),
    (0 < n.toNat → 0xFFF < s.i.toNat + n.toNat - 1 →
      exec (.drw x y n) s = .next { s with halt := some (.addressOutOfRange (max s.i.toNat 0x1000)) }) ∧
    (n.toNat = 0 → ∃ t, exec (.drw x y n) s = .next t ∧ t.fb = s.fb ∧ t.reg vF = 0 ∧ t.pc = s.pc + 2 ∧
      SameRegsExcept [vF] s t ∧ t.i = s.i ∧ SameStack s t ∧ SameTimers s t ∧ SameMemory s t ∧ SameControl s t)

/-- Drawing the same sprite twice at the same place restores the display, a corner case of 45_display.md R124 that the spec
marks as derived (decision D6). On the second draw's VF the spec's derived remark says more than R124's own rule gives. So
this statement follows the model's reading, log entry 11 (DEDUCED): where the display was clear before the first draw, the
second reports a collision exactly when the sprite has a set bit. -/
def Obligations.DrawTwiceRestores : Prop :=
  ∀ (x y : Reg) (n : Nibble) (s t u : State), s.i.toNat + n.toNat ≤ 0x1000 →
    exec (.drw x y n) s = .next t → u.fb = t.fb → u.mem = s.mem → u.i = s.i → u.reg x = s.reg x → u.reg y = s.reg y →
    ∃ w, exec (.drw x y n) u = .next w ∧ w.fb = s.fb ∧
      (s.fb = Framebuffer.clear → (w.reg vF = 1 ↔ ∃ r, r < n.toNat ∧ s.mem.read (s.i.toNat + r) ≠ 0))

/-! ## Input -/

/-- LD Vx, K with a key pressed takes the lowest at once; with none it begins the wait with PC kept (46_input.md R128,
decision D13). -/
def Obligations.KeyLoadTakesOrWaits : Prop :=
  ∀ (x : Reg) (s : State),
    (∀ k : Key, s.key[k.val] = true → (∀ j : Key, j < k → s.key[j.val] = false) →
      ∃ t, exec (.ldVxK x) s = .next t ∧ (t.reg x).toNat = k.val ∧ t.pc = s.pc + 2 ∧ SameRegsExcept [x] s t ∧
        OnlyRegsAndPc s t) ∧
    ((∀ k : Key, s.key[k.val] = false) → exec (.ldVxK x) s = .next { s with wait := some x })

/-- set_key writes its flag and nothing else in every core state, and an index above 15 is refused (60_exceptions.md R151;
decisions D12, D23). -/
def Obligations.SetKeyWritesLatch : Prop :=
  ∀ (c : System) (index : Nat) (pressed : Bool),
    (∀ h : index < 16, ∃ d, c.event (.setKey index pressed) = .next (d, .done) ∧ d.core.key[index]'h = pressed ∧
      (∀ k (hk : k < 16), k ≠ index → d.core.key[k]'hk = c.core.key[k]'hk) ∧
      d = { c with core := { c.core with key := d.core.key } }) ∧
    (16 ≤ index → c.event (.setKey index pressed) = .refused .keyIndexOutsideContract)

/-! ## Loading and reading -/

/-- load_rom after a reset: the bytes verbatim from 0x200 and nothing else, or RomTooLarge with nothing changed; a second
load, or one after the first step, is refused (20_memory.md R64, R65; decision D21, log entry 3). That RomTooLarge records
the rejected length is the spec's decision D10 (60_exceptions.md section 1; log entry 6). -/
def Obligations.LoadRomPlacesBytes : Prop :=
  ∀ (c : System) (bytes : List Byte),
    (c.phase = .fresh → c.core.mem.wf = true → bytes.length ≤ 3584 →
      ∃ d, c.event (.loadRom bytes) = .next (d, .loadOk) ∧
        (∀ k (h : k < bytes.length), d.core.mem.read (0x200 + k) = bytes[k]'h) ∧
        SameMemoryOutside 0x200 bytes.length c.core d.core ∧
        d = { core := { c.core with mem := d.core.mem }, phase := .loaded }) ∧
    (c.phase = .fresh → 3584 < bytes.length →
      c.event (.loadRom bytes) = .next (c, .loadErr (.romTooLarge bytes.length))) ∧
    (c.phase ≠ .fresh → c.event (.loadRom bytes) = .refused .loadRomOutsideContract)

/-- The timer ports return ST and DT and change nothing (60_exceptions.md R155), in every core state (the spec's decision
D12, log entry 6). -/
def Obligations.TimerPortsReadTimers : Prop :=
  ∀ c : System, c.event .getSoundTimer = .next (c, .timer c.core.st) ∧ c.event .getDelayTimer = .next (c, .timer c.core.dt)

/-! ## The whole machine -/

/-- At power-up, whatever the parameters, and at `State.reset`, the invariant holds (10_state.md section 9; decisions D4,
D5, D11, D13, D19). -/
def Obligations.InvariantAtReset : Prop := State.reset.Inv ∧ ∀ p : Params, (System.powerUp p).Inv

/-- Every step keeps the invariant: canonical memory, PC at most 0x10FE, return addresses at most 0x1000, I at most 0xFFF
with `I_WRAP` = 4096, a halt with a fatal error, and a wait that stands at its LD Vx, K (10_state.md R24, 30_encoding.md
R86, 43_index_memory.md R113; decisions D7, D11, D13, D14, D16). -/
def Obligations.StepKeepsInvariant : Prop := ∀ s t : State, s.Inv → step s = .next t → t.Inv

/-- Every event at the ports keeps the invariant of a run, so it holds at every point of every interleaving (00_scope.md
R8; decisions D21, D22, D28). -/
def Obligations.EventsKeepInvariant : Prop :=
  ∀ (c d : System) (e : Event) (r : Reply), c.Inv → c.event e = .next (d, r) → d.Inv

/-- Which instructions may write each piece of state: I, the stack, the timers, the display, the memory, the wait and the
draws; none writes the latch or the parameters (10_state.md R23, R25 to R29, R31, R35; 20_memory.md R49; log entry 2 for
the draws). -/
def Obligations.OnlyNamedInstructionsWrite : Prop :=
  ∀ (i : Instr) (s t : State), exec i s = .next t →
    (t.i ≠ s.i → (∃ nnn, i = .ldI nnn) ∨ (∃ x, i = .addI x ∨ i = .ldF x) ∨
      (s.params.loadStoreIncrement = true ∧ ∃ x, i = .ldMemVx x ∨ i = .ldVxMem x)) ∧
    (t.sp ≠ s.sp → i = .ret ∨ ∃ nnn, i = .call nnn) ∧ (t.stack ≠ s.stack → ∃ nnn, i = .call nnn) ∧
    (t.dt ≠ s.dt → ∃ x, i = .ldDTVx x) ∧ (t.st ≠ s.st → ∃ x, i = .ldSTVx x) ∧
    (t.fb ≠ s.fb → i = .cls ∨ ∃ x y n, i = .drw x y n) ∧
    ((∃ a, t.mem.read a ≠ s.mem.read a) → ∃ x, i = .ldB x ∨ i = .ldMemVx x) ∧
    (t.wait ≠ s.wait → ∃ x, i = .ldVxK x) ∧ (t.draws ≠ s.draws → ∃ x kk, i = .rnd x kk) ∧
    (∀ r, t.reg r ≠ s.reg r → writesResult r i = true ∨ (r = vF ∧ writesFlag i = true)) ∧
    t.key = s.key ∧ t.params = s.params

/-- An instruction that reaches no quirk does the same under every setting of the parameters (70_reset_and_hazards.md
R169, a derived rule; the parameters are arguments, log entry 1). It speaks of SHR and SHL with x = y only, and of ADD I
with a sum of at most 0xFFF only. It compares two executions from the same `draws`, so RND is given the same oracle byte in
both: the model's choice of log entry 2 (DESIGN CHOICE), unsafe for a source that would give two draws two bytes. -/
def Obligations.QuirkFreeIgnoresParameters : Prop :=
  ∀ (i : Instr) (s : State) (p : Params), QuirkFree s i →
    ∃ t, exec i s = .next t ∧ exec i { s with params := p } = .next { t with params := p }

/-- A halt is final until reset: no run of other events changes the error, the registers, the stack, the display or the
memory (60_exceptions.md R134, R136, decisions D11, D12). -/
def Obligations.HaltIsFinalUntilReset : Prop :=
  ∀ (events : List Event) (c d : System) (e : CoreError), c.phase = .running → c.core.halt = some e →
    Event.reset ∉ events → c.run events = .next d →
    d.core.halt = some e ∧ d.core.v = c.core.v ∧ d.core.i = c.core.i ∧ d.core.pc = c.core.pc ∧ SameStack c.core d.core ∧
    d.core.fb = c.core.fb ∧ SameMemory c.core d.core ∧ d.core.params = c.core.params

/-- In each of the three end states a step leaves the whole core as it is (70_reset_and_hazards.md R173, decision D31). -/
def Obligations.EndStatesAreFixed : Prop :=
  ∀ s : State, s.Faulted ∨ s.Parked ∨ s.Waiting → step s = .next s
end

