-- ==== Sys2Proof/Laws/Decode.lean ====
section
/-!
SUPPORT. The encoding in arithmetic: every field of a word and every pattern as a number, the masks, and the byte order.
With these a fact about encodings is linear arithmetic.
-/

namespace Sys2Proof

/-! ## Fields -/

theorem fieldOp_eq (w : Word) : fieldOp w = w.toNat / 4096 := by
  have := w.isLt
  simp only [fieldOp, BitVec.extractLsb'_toNat, Nat.shiftRight_eq_div_pow]
  omega

theorem fieldX_val (w : Word) : (fieldX w).val = w.toNat / 256 % 16 := by
  simp [fieldX, BitVec.extractLsb'_toNat, Nat.shiftRight_eq_div_pow]

theorem fieldY_val (w : Word) : (fieldY w).val = w.toNat / 16 % 16 := by
  simp [fieldY, BitVec.extractLsb'_toNat, Nat.shiftRight_eq_div_pow]

theorem fieldN_toNat (w : Word) : (fieldN w).toNat = w.toNat % 16 := by
  simp [fieldN, BitVec.extractLsb'_toNat]

theorem fieldKK_toNat (w : Word) : (fieldKK w).toNat = w.toNat % 256 := by
  simp [fieldKK, BitVec.extractLsb'_toNat]

theorem fieldNNN_toNat (w : Word) : (fieldNNN w).toNat = w.toNat % 4096 := by
  simp [fieldNNN, BitVec.extractLsb'_toNat]

/-! ## Patterns -/

@[simp] theorem regBits_toNat (x : Reg) : (regBits x).toNat = x.val := by
  simp [regBits]

theorem wordNNN_toNat (p : Nibble) (nnn : Addr12) : (wordNNN p nnn).toNat = p.toNat * 4096 + nnn.toNat := by
  have h := BitVec.toNat_append p nnn
  rw [Nat.shiftLeft_eq, Nat.mul_comm, ← Nat.two_pow_add_eq_or_of_lt nnn.isLt, Nat.mul_comm] at h
  exact h

theorem wordXKK_toNat (p : Nibble) (x : Reg) (kk : Byte) :
    (wordXKK p x kk).toNat = p.toNat * 4096 + x.val * 256 + kk.toNat := by
  have h := BitVec.toNat_append (p ++ regBits x) kk
  rw [Nat.shiftLeft_eq, Nat.mul_comm, ← Nat.two_pow_add_eq_or_of_lt kk.isLt, Nat.mul_comm] at h
  have h' := BitVec.toNat_append p (regBits x)
  rw [Nat.shiftLeft_eq, Nat.mul_comm, ← Nat.two_pow_add_eq_or_of_lt (regBits x).isLt, Nat.mul_comm, regBits_toNat] at h'
  rw [h'] at h
  refine Eq.trans h ?_
  omega

theorem wordXYN_toNat (p : Nibble) (x y : Reg) (n : Nibble) :
    (wordXYN p x y n).toNat = p.toNat * 4096 + x.val * 256 + y.val * 16 + n.toNat := by
  have h := BitVec.toNat_append (p ++ regBits x ++ regBits y) n
  rw [Nat.shiftLeft_eq, Nat.mul_comm, ← Nat.two_pow_add_eq_or_of_lt n.isLt, Nat.mul_comm] at h
  have h' := BitVec.toNat_append (p ++ regBits x) (regBits y)
  rw [Nat.shiftLeft_eq, Nat.mul_comm, ← Nat.two_pow_add_eq_or_of_lt (regBits y).isLt, Nat.mul_comm, regBits_toNat] at h'
  have h'' := BitVec.toNat_append p (regBits x)
  rw [Nat.shiftLeft_eq, Nat.mul_comm, ← Nat.two_pow_add_eq_or_of_lt (regBits x).isLt, Nat.mul_comm, regBits_toNat] at h''
  rw [h', h''] at h
  refine Eq.trans h ?_
  omega

/-! ## The fields of a pattern -/

@[simp] theorem fieldOp_wordNNN (p : Nibble) (nnn : Addr12) : fieldOp (wordNNN p nnn) = p.toNat := by
  have := nnn.isLt
  rw [fieldOp_eq, wordNNN_toNat]
  omega

@[simp] theorem fieldNNN_wordNNN (p : Nibble) (nnn : Addr12) : fieldNNN (wordNNN p nnn) = nnn := by
  have := nnn.isLt
  apply BitVec.eq_of_toNat_eq
  rw [fieldNNN_toNat, wordNNN_toNat]
  omega

@[simp] theorem fieldOp_wordXKK (p : Nibble) (x : Reg) (kk : Byte) : fieldOp (wordXKK p x kk) = p.toNat := by
  have := kk.isLt
  have := x.isLt
  rw [fieldOp_eq, wordXKK_toNat]
  omega

@[simp] theorem fieldX_wordXKK (p : Nibble) (x : Reg) (kk : Byte) : fieldX (wordXKK p x kk) = x := by
  have := kk.isLt
  have := x.isLt
  apply Fin.ext
  rw [fieldX_val, wordXKK_toNat]
  omega

@[simp] theorem fieldKK_wordXKK (p : Nibble) (x : Reg) (kk : Byte) : fieldKK (wordXKK p x kk) = kk := by
  have := kk.isLt
  apply BitVec.eq_of_toNat_eq
  rw [fieldKK_toNat, wordXKK_toNat]
  omega

@[simp] theorem fieldOp_wordXYN (p : Nibble) (x y : Reg) (n : Nibble) : fieldOp (wordXYN p x y n) = p.toNat := by
  have := n.isLt
  have := x.isLt
  have := y.isLt
  rw [fieldOp_eq, wordXYN_toNat]
  omega

@[simp] theorem fieldX_wordXYN (p : Nibble) (x y : Reg) (n : Nibble) : fieldX (wordXYN p x y n) = x := by
  have := n.isLt
  have := x.isLt
  have := y.isLt
  apply Fin.ext
  rw [fieldX_val, wordXYN_toNat]
  omega

@[simp] theorem fieldY_wordXYN (p : Nibble) (x y : Reg) (n : Nibble) : fieldY (wordXYN p x y n) = y := by
  have := n.isLt
  have := y.isLt
  apply Fin.ext
  rw [fieldY_val, wordXYN_toNat]
  omega

@[simp] theorem fieldN_wordXYN (p : Nibble) (x y : Reg) (n : Nibble) : fieldN (wordXYN p x y n) = n := by
  have := n.isLt
  apply BitVec.eq_of_toNat_eq
  rw [fieldN_toNat, wordXYN_toNat]
  omega

/-! ## Bytes, 20_memory.md R55 -/

theorem wordOfBytes_toNat (hi lo : Byte) : (wordOfBytes hi lo).toNat = hi.toNat * 256 + lo.toNat := by
  have h := BitVec.toNat_append hi lo
  rw [Nat.shiftLeft_eq, Nat.mul_comm, ← Nat.two_pow_add_eq_or_of_lt lo.isLt, Nat.mul_comm] at h
  exact h

theorem highByte_toNat (w : Word) : (highByte w).toNat = w.toNat / 256 := by
  have := w.isLt
  simp only [highByte, BitVec.extractLsb'_toNat, Nat.shiftRight_eq_div_pow]
  omega

theorem lowByte_toNat (w : Word) : (lowByte w).toNat = w.toNat % 256 := by
  simp [lowByte, BitVec.extractLsb'_toNat]

/-- A word is its high byte, then its low byte. -/
theorem wordOfBytes_split (w : Word) : wordOfBytes (highByte w) (lowByte w) = w := by
  apply BitVec.eq_of_toNat_eq
  rw [wordOfBytes_toNat, highByte_toNat, lowByte_toNat]
  omega

/-! ## Masks -/

theorem mask_F000 (w : Word) : (w &&& 0xF000#16).toNat = w.toNat / 4096 * 4096 := by
  have h : w &&& 0xF000#16 = (w >>> 12) <<< 12 := by
    ext i hi
    interval_cases i <;> simp
  rw [h]
  have := w.isLt
  simp only [BitVec.toNat_shiftLeft, BitVec.toNat_ushiftRight, Nat.shiftRight_eq_div_pow, Nat.shiftLeft_eq]
  omega

theorem mask_000F (w : Word) : (w &&& 0x000F#16).toNat = w.toNat % 16 := by
  rw [BitVec.toNat_and]
  exact Nat.and_two_pow_sub_one_eq_mod w.toNat 4

theorem mask_00FF (w : Word) : (w &&& 0x00FF#16).toNat = w.toNat % 256 := by
  rw [BitVec.toNat_and]
  exact Nat.and_two_pow_sub_one_eq_mod w.toNat 8

theorem mask_F00F (w : Word) : (w &&& 0xF00F#16).toNat = w.toNat / 4096 * 4096 + w.toNat % 16 := by
  have h : w &&& 0xF00F#16 = (w &&& 0xF000#16) + (w &&& 0x000F#16) := by
    rw [BitVec.add_eq_or_of_and_eq_zero]
    · ext i hi
      interval_cases i <;> simp
    · ext i hi
      interval_cases i <;> simp
  have := w.isLt
  rw [h, BitVec.toNat_add, mask_F000, mask_000F]
  omega

theorem mask_F0FF (w : Word) : (w &&& 0xF0FF#16).toNat = w.toNat / 4096 * 4096 + w.toNat % 256 := by
  have h : w &&& 0xF0FF#16 = (w &&& 0xF000#16) + (w &&& 0x00FF#16) := by
    rw [BitVec.add_eq_or_of_and_eq_zero]
    · ext i hi
      interval_cases i <;> simp
    · ext i hi
      interval_cases i <;> simp
  have := w.isLt
  rw [h, BitVec.toNat_add, mask_F000, mask_00FF]
  omega

/-- A word of pattern `pnnn` under the mask F000. -/
theorem wordNNN_mask (p : Nibble) (nnn : Addr12) (v : Word) (hv : v.toNat = p.toNat * 4096) :
    wordNNN p nnn &&& 0xF000#16 = v := by
  apply BitVec.eq_of_toNat_eq
  have := nnn.isLt
  rw [mask_F000, wordNNN_toNat]
  omega

/-- A word of pattern `pxkk` under the mask F000. -/
theorem wordXKK_mask (p : Nibble) (x : Reg) (kk : Byte) (v : Word) (hv : v.toNat = p.toNat * 4096) :
    wordXKK p x kk &&& 0xF000#16 = v := by
  apply BitVec.eq_of_toNat_eq
  have := kk.isLt
  have := x.isLt
  rw [mask_F000, wordXKK_toNat]
  omega

/-- A word of pattern `pxkk` under the mask F0FF. -/
theorem wordXKK_mask_low (p : Nibble) (x : Reg) (kk : Byte) (v : Word) (hv : v.toNat = p.toNat * 4096 + kk.toNat) :
    wordXKK p x kk &&& 0xF0FF#16 = v := by
  apply BitVec.eq_of_toNat_eq
  have := kk.isLt
  have := x.isLt
  rw [mask_F0FF, wordXKK_toNat]
  omega

/-- A word of pattern `pxyn` under the mask F000. -/
theorem wordXYN_mask (p : Nibble) (x y : Reg) (n : Nibble) (v : Word) (hv : v.toNat = p.toNat * 4096) :
    wordXYN p x y n &&& 0xF000#16 = v := by
  apply BitVec.eq_of_toNat_eq
  have := n.isLt
  have := x.isLt
  have := y.isLt
  rw [mask_F000, wordXYN_toNat]
  omega

/-- A word of pattern `pxyn` under the mask F00F. -/
theorem wordXYN_mask_low (p : Nibble) (x y : Reg) (n : Nibble) (v : Word) (hv : v.toNat = p.toNat * 4096 + n.toNat) :
    wordXYN p x y n &&& 0xF00F#16 = v := by
  apply BitVec.eq_of_toNat_eq
  have := n.isLt
  have := x.isLt
  have := y.isLt
  rw [mask_F00F, wordXYN_toNat]
  omega

end Sys2Proof
end

