-- ==== Sys2Proof/Laws/Memory.lean ====
section
/-!
SUPPORT. The laws of the memory: reads after writes, that every operation keeps the canonical form, that equal canonical
memories are equal lists, and what a region write and a region read do.
-/

namespace Sys2Proof.Machine

namespace MemoryLaws

theorem unlisted_out_of_range (a : Nat) (h : 80 ≤ a) : Memory.unlisted a = 0 := by
  have hlen : font.length = 80 := by decide
  simp only [Memory.unlisted, fontBase, Nat.zero_le, if_true, Nat.sub_zero]
  rw [List.getD_eq_getElem?_getD, List.getElem?_eq_none (by omega)]
  rfl

theorem read_nil (a : Nat) : Memory.read [] a = Memory.unlisted a := rfl

theorem read_cons (k : Nat) (b : Byte) (m : Memory) (a : Nat) :
    Memory.read ((k, b) :: m) a = if k = a then b else m.read a := rfl

theorem read_consCell_other {a c : Nat} (b : Byte) (m : Memory) (h : c ≠ a) :
    (Memory.consCell a b m).read c = m.read c := by
  unfold Memory.consCell
  split
  · rfl
  · rw [read_cons, if_neg (Ne.symm h)]

/-- A write leaves every other address as it was, whatever the list's form. -/
theorem read_write_other (m : Memory) {a c : Nat} (b : Byte) (h : c ≠ a) : (m.write a b).read c = m.read c := by
  induction m with
  | nil => exact read_consCell_other b [] h
  | cons cell rest ih =>
    obtain ⟨k, d⟩ := cell
    simp only [Memory.write]
    split
    · exact read_consCell_other b _ h
    · split
      · rename_i h1 h2
        rw [read_consCell_other b _ h, read_cons, if_neg (by omega)]
      · simp only [read_cons, ih]

theorem canonicalFrom_cons {lo k : Nat} {b : Byte} {m : Memory} :
    Memory.canonicalFrom lo ((k, b) :: m) = true ↔
      lo ≤ k ∧ k < memSize ∧ b ≠ Memory.unlisted k ∧ Memory.canonicalFrom (k + 1) m = true := by
  simp [Memory.canonicalFrom, and_assoc]

theorem canonicalFrom_mono {lo lo' : Nat} {m : Memory} (h : lo' ≤ lo) (hm : Memory.canonicalFrom lo m = true) :
    Memory.canonicalFrom lo' m = true := by
  cases m with
  | nil => rfl
  | cons cell rest =>
    obtain ⟨k, b⟩ := cell
    rw [canonicalFrom_cons] at hm ⊢
    exact ⟨by omega, hm.2⟩

/-- Below its first cell a canonical list reads as the reset contents. -/
theorem read_below {lo : Nat} {m : Memory} (hm : Memory.canonicalFrom lo m = true) {a : Nat} (h : a < lo) :
    m.read a = Memory.unlisted a := by
  induction m generalizing lo with
  | nil => rfl
  | cons cell rest ih =>
    obtain ⟨k, b⟩ := cell
    rw [canonicalFrom_cons] at hm
    rw [read_cons, if_neg (by omega), ih hm.2.2.2 (by omega)]

theorem consCell_canonicalFrom {lo a : Nat} {b : Byte} {m : Memory} (hlo : lo ≤ a) (ha : a < memSize)
    (hm : Memory.canonicalFrom (a + 1) m = true) : Memory.canonicalFrom lo (Memory.consCell a b m) = true := by
  unfold Memory.consCell
  split
  · exact canonicalFrom_mono (by omega) hm
  · rename_i hb
    exact canonicalFrom_cons.mpr ⟨hlo, ha, hb, hm⟩

theorem read_consCell_same {a : Nat} {b : Byte} {m : Memory} (hm : Memory.canonicalFrom (a + 1) m = true) :
    (Memory.consCell a b m).read a = b := by
  unfold Memory.consCell
  split
  · rename_i hb
    rw [read_below hm (Nat.lt_succ_self a), hb]
  · rw [read_cons, if_pos rfl]

/-- A write inside the memory keeps the canonical form. -/
theorem write_canonicalFrom {lo : Nat} {m : Memory} {a : Nat} {b : Byte} (hlo : lo ≤ a) (ha : a < memSize)
    (hm : Memory.canonicalFrom lo m = true) : Memory.canonicalFrom lo (m.write a b) = true := by
  induction m generalizing lo with
  | nil => exact consCell_canonicalFrom hlo ha rfl
  | cons cell rest ih =>
    obtain ⟨k, c⟩ := cell
    have h := canonicalFrom_cons.mp hm
    simp only [Memory.write]
    split
    · exact consCell_canonicalFrom hlo ha (canonicalFrom_cons.mpr ⟨by omega, h.2⟩)
    · split
      · rename_i h1 h2
        exact consCell_canonicalFrom hlo ha (h2 ▸ h.2.2.2)
      · exact canonicalFrom_cons.mpr ⟨h.1, h.2.1, h.2.2.1, ih (by omega) h.2.2.2⟩

theorem read_write_same_from {lo : Nat} {m : Memory} {a : Nat} {b : Byte}
    (hm : Memory.canonicalFrom lo m = true) : (m.write a b).read a = b := by
  induction m generalizing lo with
  | nil => exact read_consCell_same rfl
  | cons cell rest ih =>
    obtain ⟨k, c⟩ := cell
    have h := canonicalFrom_cons.mp hm
    simp only [Memory.write]
    split
    · exact read_consCell_same (canonicalFrom_cons.mpr ⟨by omega, h.2⟩)
    · split
      · rename_i h1 h2
        exact read_consCell_same (h2 ▸ h.2.2.2)
      · rename_i h1 h2
        rw [read_cons, if_neg (by omega), ih h.2.2.2]

/-- A read after a write to the same address gives the byte written. -/
theorem read_write_same {m : Memory} (hm : m.wf = true) (a : Nat) (b : Byte) : (m.write a b).read a = b :=
  read_write_same_from hm

/-- `Memory.wf` is kept by a write. -/
theorem write_wf {m : Memory} (hm : m.wf = true) {a : Nat} (ha : a < memSize) (b : Byte) : (m.write a b).wf = true :=
  write_canonicalFrom (Nat.zero_le a) ha hm

/-! ## Regions -/

/-- `Memory.wf` is kept by a region write inside the memory. -/
theorem writeBytes_wf {m : Memory} (hm : m.wf = true) {a : Nat} (bs : List Byte) (ha : a + bs.length ≤ memSize) :
    (m.writeBytes a bs).wf = true := by
  induction bs generalizing m a with
  | nil => exact hm
  | cons b bs ih =>
    simp only [List.length_cons] at ha
    exact ih (write_wf hm (by omega) b) (by omega)

/-- A region write leaves every address outside the region as it was. -/
theorem read_writeBytes_outside (m : Memory) {a c : Nat} (bs : List Byte) (h : c < a ∨ a + bs.length ≤ c) :
    (m.writeBytes a bs).read c = m.read c := by
  induction bs generalizing m a with
  | nil => rfl
  | cons b bs ih =>
    simp only [List.length_cons] at h
    simp only [Memory.writeBytes]
    rw [ih (m.write a b) (by omega), read_write_other m b (by omega)]

/-- A region write inside the memory puts byte `k` of its list at address `a + k`. -/
theorem read_writeBytes_inside {m : Memory} (hm : m.wf = true) {a : Nat} (bs : List Byte)
    (ha : a + bs.length ≤ memSize) (k : Nat) (hk : k < bs.length) : (m.writeBytes a bs).read (a + k) = bs[k] := by
  induction bs generalizing m a k with
  | nil => exact absurd hk (Nat.not_lt_zero k)
  | cons b bs ih =>
    simp only [List.length_cons] at ha hk
    simp only [Memory.writeBytes]
    cases k with
    | zero =>
      rw [read_writeBytes_outside _ bs (by omega), Nat.add_zero, read_write_same hm]
      rfl
    | succ k =>
      have hw : (m.write a b).wf = true := write_wf hm (by omega) b
      have h := ih hw (a := a + 1) (by omega) k (by omega)
      rw [show a + (k + 1) = a + 1 + k by omega, h, List.getElem_cons_succ]

theorem readBytes_length (m : Memory) (a n : Nat) : (m.readBytes a n).length = n := by
  induction n generalizing a with
  | zero => rfl
  | succ n ih => simp [Memory.readBytes, ih]

theorem readBytes_getElem (m : Memory) (a n k : Nat) (h : k < (m.readBytes a n).length) :
    (m.readBytes a n)[k] = m.read (a + k) := by
  induction n generalizing a k with
  | zero => exact absurd h (Nat.not_lt_zero k)
  | succ n ih =>
    cases k with
    | zero => rfl
    | succ k =>
      simp only [Memory.readBytes, List.getElem_cons_succ]
      rw [ih]
      congr 1
      omega

/-- Reading back a region just written gives its bytes. -/
theorem readBytes_writeBytes {m : Memory} (hm : m.wf = true) {a : Nat} (bs : List Byte)
    (ha : a + bs.length ≤ memSize) : (m.writeBytes a bs).readBytes a bs.length = bs := by
  apply List.ext_getElem (readBytes_length _ _ _)
  intro k _ h
  rw [readBytes_getElem, read_writeBytes_inside hm bs ha k h]

/-! ## Equal reads, equal lists -/

theorem ext_from {lo : Nat} {m m' : Memory} (hm : Memory.canonicalFrom lo m = true)
    (hm' : Memory.canonicalFrom lo m' = true) (h : ∀ a, m.read a = m'.read a) : m = m' := by
  induction m generalizing lo m' with
  | nil =>
    cases m' with
    | nil => rfl
    | cons cell rest =>
      obtain ⟨k, b⟩ := cell
      have h' := canonicalFrom_cons.mp hm'
      have hk := h k
      rw [read_cons, if_pos rfl, read_nil] at hk
      exact absurd hk.symm h'.2.2.1
  | cons cell rest ih =>
    obtain ⟨k, b⟩ := cell
    have h1 := canonicalFrom_cons.mp hm
    cases m' with
    | nil =>
      have hk := h k
      rw [read_cons, if_pos rfl, read_nil] at hk
      exact absurd hk h1.2.2.1
    | cons cell' rest' =>
      obtain ⟨k', b'⟩ := cell'
      have h2 := canonicalFrom_cons.mp hm'
      have hkk : k = k' := by
        rcases Nat.lt_trichotomy k k' with hlt | heq | hgt
        · have hk := h k
          rw [read_cons, if_pos rfl, read_cons, if_neg (by omega), read_below h2.2.2.2 (by omega)] at hk
          exact absurd hk h1.2.2.1
        · exact heq
        · have hk := h k'
          rw [read_cons, if_neg (by omega), read_cons, if_pos rfl, read_below h1.2.2.2 (by omega)] at hk
          exact absurd hk.symm h2.2.2.1
      subst hkk
      have hbb : b = b' := by
        have hk := h k
        rwa [read_cons, if_pos rfl, read_cons, if_pos rfl] at hk
      subst hbb
      have hrest : rest = rest' := by
        apply ih h1.2.2.2 h2.2.2.2
        intro a
        by_cases hak : k = a
        · subst hak
          rw [read_below h1.2.2.2 (Nat.lt_succ_self k), read_below h2.2.2.2 (Nat.lt_succ_self k)]
        · have ha := h a
          rwa [read_cons, if_neg hak, read_cons, if_neg hak] at ha
      rw [hrest]

/-- Canonical memories that read alike are the same list. -/
theorem ext {m m' : Memory} (hm : m.wf = true) (hm' : m'.wf = true) (h : ∀ a, m.read a = m'.read a) : m = m' :=
  ext_from hm hm' h

/-- The reset memory is canonical. -/
theorem reset_wf : State.reset.mem.wf = true := rfl

/-! ## The region check -/

/-- The check passes exactly on a region of no bytes or inside the memory. -/
theorem regionCheck_none {b k : Nat} : regionCheck b k = none ↔ k = 0 ∨ b + k ≤ memSize := by
  unfold regionCheck memSize
  split <;> simp <;> omega

/-- What the check answers otherwise: the first address above 0xFFF. -/
theorem regionCheck_some {b k : Nat} (hk : 0 < k) (h : memSize < b + k) :
    regionCheck b k = some (.addressOutOfRange (max b 0x1000)) := by
  unfold regionCheck
  unfold memSize at h
  rw [if_pos ⟨hk, by omega⟩]

theorem regionCheck_eq_some {b k : Nat} {e : CoreError} (h : regionCheck b k = some e) :
    0 < k ∧ memSize < b + k ∧ e = .addressOutOfRange (max b 0x1000) := by
  unfold regionCheck at h
  split at h
  · simp only [Option.some.injEq] at h
    refine ⟨by omega, ?_, h.symm⟩
    unfold memSize
    omega
  · exact absurd h (by simp)

end MemoryLaws

end Sys2Proof.Machine
end

