-- ==== Sys2Proof/Laws/Operands.lean ====
section
/-!
SUPPORT. What each operand form and each computation gives, as a number: the addresses, the arithmetic of 42_alu.md, the
digits, the register ranges and the sprite rows.
-/

namespace Sys2Proof.Machine

/-! ## Addresses -/

@[simp] theorem addrOfNNN_toNat (nnn : Addr12) : (addrOfNNN nnn).toNat = nnn.toNat := by
  have := nnn.isLt
  simp [addrOfNNN]
  omega

/-- The target of JP V0 is the natural sum. -/
theorem jumpV0Target_toNat (s : State) (nnn : Addr12) :
    (jumpV0Target s nnn).toNat = nnn.toNat + (s.reg 0).toNat := by
  have := nnn.isLt
  have := (s.reg 0).isLt
  simp [jumpV0Target]
  omega

/-- The glyph address as a number, at most 0x04B. -/
theorem glyphAddr_toNat (b : Byte) : (glyphAddr b).toNat = fontBase + 5 * (b.toNat % 16) := by
  revert b
  decide

/-- A sum reduced modulo `I_WRAP`. -/
theorem wrapI_toNat (s : State) (n : Nat) :
    (wrapI s n).toNat = n % (if s.params.iWrap = .at4096 then 4096 else 65536) := by
  unfold wrapI wrapModulus
  cases s.params.iWrap
  · simp
    omega
  · simp

/-- I after a store or a load of registers. -/
theorem incrementedI_toNat (s : State) (x : Reg) :
    (incrementedI s x).toNat = if s.params.loadStoreIncrement then
      (s.i.toNat + x.val + 1) % (if s.params.iWrap = .at4096 then 4096 else 65536) else s.i.toNat := by
  unfold incrementedI
  split
  · exact wrapI_toNat s _
  · rfl

/-! ## Arithmetic -/

theorem addBytes_toNat (a b : Byte) : (addBytes a b).toNat = (a.toNat + b.toNat) % 256 := by
  simp [addBytes]

theorem subBytes_toNat (a b : Byte) : (subBytes a b).toNat = (a.toNat + 256 - b.toNat) % 256 := by
  simp [subBytes]

theorem flagByte_toNat (f : Bool) : (flagByte f).toNat = if f then 1 else 0 := by
  cases f <;> rfl

/-- A flag is 0 or 1. -/
theorem flagByte_bit (f : Bool) : flagByte f = 0 ∨ flagByte f = 1 := by
  cases f
  · exact .inl rfl
  · exact .inr rfl

theorem carryOut_toNat (a b : Byte) : (carryOut a b).toNat = if a.toNat + b.toNat > 255 then 1 else 0 := by
  simp [carryOut, flagByte_toNat]

theorem notBorrow_toNat (a b : Byte) : (notBorrow a b).toNat = if a.toNat ≥ b.toNat then 1 else 0 := by
  simp [notBorrow, flagByte_toNat]

theorem shiftedRight_toNat (b : Byte) : (shiftedRight b).toNat = b.toNat / 2 := by
  have := b.isLt
  simp [shiftedRight, Nat.shiftRight_eq_div_pow]
  omega

theorem shiftedLeft_toNat (b : Byte) : (shiftedLeft b).toNat = b.toNat * 2 % 256 := by
  simp [shiftedLeft, Nat.shiftLeft_eq]

theorem lowBit_toNat (b : Byte) : (lowBit b).toNat = b.toNat % 2 := by
  revert b
  decide

theorem highBit_toNat (b : Byte) : (highBit b).toNat = b.toNat / 128 := by
  revert b
  decide

/-- A count toward 0, as truncated subtraction. -/
theorem countDown_toNat (b : Byte) : (countDown b).toNat = b.toNat - 1 := by
  revert b
  decide

/-! ## Keys, digits, register ranges, sprite rows -/

theorem keyOf_val (b : Byte) : (keyOf b).val = b.toNat % 16 := by
  simp [keyOf]

theorem keyByte_toNat (k : Key) : (keyByte k).toNat = k.val := by
  revert k
  decide

@[simp] theorem bcdDigits_length (b : Byte) : (bcdDigits b).length = 3 := rfl

@[simp] theorem State.regsUpTo_length (s : State) (x : Reg) : (s.regsUpTo x).length = x.val + 1 := by
  simp [State.regsUpTo]

theorem State.regsUpTo_getElem (s : State) (x k : Reg) (h : k.val < (s.regsUpTo x).length) :
    (s.regsUpTo x)[k.val] = s.reg k := by
  simp [State.regsUpTo, State.reg]

/-- The registers after LD Vx, [I]: the range from memory, the rest as before. -/
theorem State.loadedRegs_getElem (s : State) (x k : Reg) :
    (s.loadedRegs x)[k.val] = if k.val ≤ x.val then s.mem.read (s.i.toNat + k.val) else s.reg k := by
  simp [State.loadedRegs, State.regionBase]

@[simp] theorem State.spriteRows_length (s : State) (n : Nibble) : (s.spriteRows n).length = n.toNat :=
  MemoryLaws.readBytes_length _ _ _

theorem State.spriteRows_getElem (s : State) (n : Nibble) (r : Nat) (h : r < (s.spriteRows n).length) :
    (s.spriteRows n)[r] = s.mem.read (s.regionBase + r) :=
  MemoryLaws.readBytes_getElem _ _ _ _ h

/-! ## The commits of one register -/

/-- After one register write and the advance, every other register is as before. -/
theorem State.setReg_advance_other (s : State) (x : Reg) (b : Byte) (r : Reg) (h : r ∉ [x]) :
    (s.setReg x b).advance.reg r = s.reg r := by
  rw [List.mem_singleton] at h
  simp [State.setReg_reg, h]

/-- After the flag template and the advance, every register but Vx and VF is as before. -/
theorem State.writeWithFlag_advance_other (s : State) (x : Reg) (b f : Byte) (r : Reg) (h : r ∉ [x, vF]) :
    (s.writeWithFlag x b f).advance.reg r = s.reg r := by
  simp only [List.mem_cons, List.not_mem_nil, or_false, not_or] at h
  simp [State.writeWithFlag_reg, h]

end Sys2Proof.Machine
end

