-- ==== Sys2Proof/Laws/Display.lean ====
section
/-!
SUPPORT. The display's small laws: what a flip and a clear do to each pixel, that displays with the same pixels are the
same display, and what a blit of some rows does to every pixel and to the collision.
-/

namespace Sys2Proof.Machine

@[simp] theorem Framebuffer.clear_pixel (x : Fin 64) (y : Fin 32) : Framebuffer.clear.pixel x y = false := by
  simp [Framebuffer.clear, Framebuffer.pixel]

/-- A flip inverts its pixel and no other. -/
theorem Framebuffer.flip_pixel (f : Framebuffer) (x : Fin 64) (y : Fin 32) (a : Fin 64) (b : Fin 32) :
    (f.flip x y).pixel a b = if a = x ∧ b = y then !f.pixel x y else f.pixel a b := by
  simp only [Framebuffer.flip, Framebuffer.pixel, Vector.getElem_set, Fin.ext_iff]
  by_cases hb : y.val = b.val
  · by_cases ha : x.val = a.val
    · simp [hb, ha]
    · simp [hb, ha, eq_comm]
  · simp [hb, Ne.symm hb]

/-- Displays with the same pixels are equal. -/
theorem Framebuffer.ext_pixel {f g : Framebuffer} (h : ∀ x y, f.pixel x y = g.pixel x y) : f = g := by
  apply Vector.ext
  intro j hj
  apply Vector.ext
  intro i hi
  exact h ⟨i, hi⟩ ⟨j, hj⟩

/-- One column of one row: nothing for a clear sprite bit, else the pixel it falls on. -/
theorem blitColumn_eq (row : Byte) (x0 y : Nat) (b : Blit) (c : Nat) :
    blitColumn row x0 y b c = if spriteBit row c then blitPixel (wrapColumn (x0 + c)) (wrapRow y) b else b := rfl

/-! ## The blit -/

/-- From `b` to `d` exactly the pixels of `S` were inverted, each once, and the collision noted a set one among them. -/
structure Drawn (S : Fin 64 → Fin 32 → Prop) (b d : Blit) : Prop where
  inverted : ∀ px py, S px py → d.fb.pixel px py = !b.fb.pixel px py
  kept : ∀ px py, ¬ S px py → d.fb.pixel px py = b.fb.pixel px py
  collision : d.collision = true ↔ b.collision = true ∨ ∃ px py, S px py ∧ b.fb.pixel px py = true

theorem drawn_nothing {S : Fin 64 → Fin 32 → Prop} (b : Blit) (h : ∀ px py, ¬ S px py) : Drawn S b b :=
  ⟨fun px py hs => absurd hs (h px py), fun _ _ _ => rfl, by simp [h]⟩

/-- Two drawings one after another, on disjoint pixels, are one drawing. -/
theorem drawn_trans {S T U : Fin 64 → Fin 32 → Prop} {a b d : Blit} (h1 : Drawn S a b) (h2 : Drawn T b d)
    (hu : ∀ px py, U px py ↔ S px py ∨ T px py) (hd : ∀ px py, S px py → ¬ T px py) : Drawn U a d := by
  have before : ∀ px py, T px py → b.fb.pixel px py = a.fb.pixel px py :=
    fun px py ht => h1.kept px py fun hs => hd px py hs ht
  refine ⟨fun px py h => ?_, fun px py h => ?_, ?_⟩
  · rcases (hu px py).mp h with hs | ht
    · rw [h2.kept _ _ (hd _ _ hs), h1.inverted _ _ hs]
    · rw [h2.inverted _ _ ht, before _ _ ht]
  · rw [hu, not_or] at h
    rw [h2.kept _ _ h.2, h1.kept _ _ h.1]
  · rw [h2.collision, h1.collision]
    constructor
    · rintro ((h | ⟨px, py, hs, hb⟩) | ⟨px, py, ht, hb⟩)
      · exact .inl h
      · exact .inr ⟨px, py, (hu _ _).mpr (.inl hs), hb⟩
      · exact .inr ⟨px, py, (hu _ _).mpr (.inr ht), before _ _ ht ▸ hb⟩
    · rintro (h | ⟨px, py, hs, hb⟩)
      · exact .inl (.inl h)
      · rcases (hu px py).mp hs with hs | ht
        · exact .inl (.inr ⟨px, py, hs, hb⟩)
        · exact .inr ⟨px, py, ht, (before _ _ ht).symm ▸ hb⟩

/-- One set sprite bit draws its pixel. -/
theorem drawn_pixel (px : Fin 64) (py : Fin 32) (b : Blit) :
    Drawn (fun a c => a = px ∧ c = py) b (blitPixel px py b) := by
  refine ⟨fun a c h => ?_, fun a c h => ?_, ?_⟩
  · obtain ⟨rfl, rfl⟩ := h
    simp [blitPixel, Framebuffer.flip_pixel]
  · simp [blitPixel, Framebuffer.flip_pixel, h]
  · simp [blitPixel]

/-- One column of one row draws its pixel if its sprite bit is set. -/
theorem drawn_column (row : Byte) (x0 y : Nat) (b : Blit) (c : Nat) :
    Drawn (fun px py => spriteBit row c = true ∧ px = wrapColumn (x0 + c) ∧ py = wrapRow y) b
      (blitColumn row x0 y b c) := by
  rw [blitColumn_eq]
  cases h : spriteBit row c
  · simpa using drawn_nothing b (by simp)
  · simpa using drawn_pixel _ _ b

/-- The pixels the first `k` columns of a row fall on. -/
def ColumnsSet (row : Byte) (x0 y k : Nat) (px : Fin 64) (py : Fin 32) : Prop :=
  ∃ c, c < k ∧ px = wrapColumn (x0 + c) ∧ py = wrapRow y ∧ spriteBit row c = true

theorem drawn_columns (row : Byte) (x0 y : Nat) (b : Blit) (k : Nat) (hk : k ≤ 8) :
    Drawn (ColumnsSet row x0 y k) b ((List.range k).foldl (blitColumn row x0 y) b) := by
  induction k with
  | zero => exact drawn_nothing b (by rintro px py ⟨c, hc, -⟩; exact Nat.not_lt_zero c hc)
  | succ k ih =>
    rw [List.range_succ, List.foldl_append]
    refine drawn_trans (ih (by omega)) (drawn_column row x0 y _ k) (fun px py => ⟨?_, ?_⟩) ?_
    · rintro ⟨c, hc, h1, h2, h3⟩
      by_cases hck : c = k
      · subst hck
        exact .inr ⟨h3, h1, h2⟩
      · exact .inl ⟨c, by omega, h1, h2, h3⟩
    · rintro (⟨c, hc, h⟩ | ⟨h3, h1, h2⟩)
      · exact ⟨c, by omega, h⟩
      · exact ⟨k, by omega, h1, h2, h3⟩
    · rintro px py ⟨c, hc, h1, -, -⟩ ⟨-, h1', -⟩
      have := congrArg Fin.val (h1 ▸ h1')
      simp [wrapColumn] at this
      omega

/-- The pixels the rows fall on, the first at display row `y`. -/
def RowsSet (rows : List Byte) (x0 y : Nat) (px : Fin 64) (py : Fin 32) : Prop :=
  ∃ r c, ∃ h : r < rows.length,
    c < 8 ∧ px = wrapColumn (x0 + c) ∧ py = wrapRow (y + r) ∧ spriteBit (rows[r]'h) c = true

/-- What a blit of at most 32 rows does: no two of its bits fall on one pixel. -/
theorem drawn_rows (rows : List Byte) (x0 y : Nat) (b : Blit) (hl : rows.length ≤ 32) :
    Drawn (RowsSet rows x0 y) b (blitRows rows x0 y b) := by
  induction rows generalizing y b with
  | nil => exact drawn_nothing b (by rintro px py ⟨r, c, hr, -⟩; exact Nat.not_lt_zero r hr)
  | cons row rows ih =>
    rw [List.length_cons] at hl
    refine drawn_trans (drawn_columns row x0 y b 8 (by omega)) (ih (y + 1) _ (by omega)) (fun px py => ⟨?_, ?_⟩) ?_
    · rintro ⟨r, c, hr, hc, h1, h2, h3⟩
      cases r with
      | zero => exact .inl ⟨c, hc, h1, h2, h3⟩
      | succ r => exact .inr ⟨r, c, by simpa using hr, hc, h1, by rw [h2]; congr 1; omega, h3⟩
    · rintro (⟨c, hc, h1, h2, h3⟩ | ⟨r, c, hr, hc, h1, h2, h3⟩)
      · exact ⟨0, c, by simp, hc, h1, h2, h3⟩
      · exact ⟨r + 1, c, by simpa using hr, hc, h1, by rw [h2]; congr 1; omega, h3⟩
    · rintro px py ⟨c, hc, -, h2, -⟩ ⟨r, c', hr, -, -, h2', -⟩
      have := congrArg Fin.val (h2 ▸ h2')
      simp [wrapRow] at this
      omega

end Sys2Proof.Machine
end

