-- ==== Sys2Proof/Laws/Ops.lean ====
section
/-!
SUPPORT. What each shared operation can do, said once: raising, the region check with its commit, push and pop, the fetch,
the unknown word, the poll, and the step.
-/

namespace Sys2Proof.Machine

theorem raise_eq (s : State) (e : CoreError) : raise s e = .next (s.halted e) := rfl

/-- The region check either raises its error and commits nothing, or commits. -/
theorem withRegion_cases (s : State) (b k : Nat) (c : State) :
    (0 < k ∧ memSize < b + k ∧ withRegion s b k c = .next (s.halted (.addressOutOfRange (max b 0x1000)))) ∨
      ((k = 0 ∨ b + k ≤ memSize) ∧ withRegion s b k c = .next c) := by
  unfold withRegion
  cases h : regionCheck b k with
  | none => exact .inr ⟨MemoryLaws.regionCheck_none.mp h, rfl⟩
  | some e =>
    obtain ⟨hk, hb, rfl⟩ := MemoryLaws.regionCheck_eq_some h
    exact .inl ⟨hk, hb, rfl⟩

theorem withRegion_inside (s : State) {b k : Nat} (c : State) (h : k = 0 ∨ b + k ≤ memSize) :
    withRegion s b k c = .next c := by
  simp [withRegion, MemoryLaws.regionCheck_none.mpr h]

theorem withRegion_outside (s : State) {b k : Nat} (c : State) (hk : 0 < k) (h : memSize < b + k) :
    withRegion s b k c = .next (s.halted (.addressOutOfRange (max b 0x1000))) := by
  simp [withRegion, MemoryLaws.regionCheck_some hk h, raise_eq]

/-- A push with a free slot writes S[SP] and increments SP. -/
theorem State.push_free (s : State) (a : Word) (h : s.sp.val < 16) :
    s.push a = some { s with stack := s.stack.set s.sp.val a, sp := ⟨s.sp.val + 1, by omega⟩ } := dif_pos h

/-- A push on a full stack is none. -/
theorem State.push_full (s : State) (a : Word) (h : s.sp.val = 16) : s.push a = none := dif_neg (by omega)

/-- A pop of an occupied slot reads S[SP - 1], decrements SP and leaves the slots. -/
theorem State.pop_occupied (s : State) (h : 0 < s.sp.val) :
    s.pop = some (s.stack[s.sp.val - 1]'(by omega), { s with sp := ⟨s.sp.val - 1, by omega⟩ }) := dif_pos h

/-- A pop of an empty stack is none. -/
theorem State.pop_empty (s : State) (h : s.sp.val = 0) : s.pop = none := dif_neg (by omega)

theorem State.push_cases {s t : State} {a : Word} (h : s.push a = some t) :
    ∃ hs : s.sp.val < 16, t = { s with stack := s.stack.set s.sp.val a, sp := ⟨s.sp.val + 1, by omega⟩ } := by
  unfold State.push at h
  split at h
  · rename_i hs
    exact ⟨hs, (Option.some.inj h).symm⟩
  · exact absurd h (by simp)

theorem State.pop_cases {s t : State} {a : Word} (h : s.pop = some (a, t)) :
    ∃ hs : 0 < s.sp.val, a = s.stack[s.sp.val - 1]'(by omega) ∧ t = { s with sp := ⟨s.sp.val - 1, by omega⟩ } := by
  unfold State.pop at h
  split at h
  · rename_i hs
    have h' := Option.some.inj h
    exact ⟨hs, (congrArg Prod.fst h').symm, (congrArg Prod.snd h').symm⟩
  · exact absurd h (by simp)

/-- The fetch answers the big-endian word at PC when both bytes are inside the memory. -/
theorem fetch_inside (s : State) (h : s.pc.toNat ≤ 0xFFE) :
    fetch s = .ok (wordOfBytes (s.mem.read s.pc.toNat) (s.mem.read (s.pc.toNat + 1))) := by
  have : regionCheck s.pc.toNat 2 = none := MemoryLaws.regionCheck_none.mpr (.inr (by unfold memSize; omega))
  simp [fetch, fetch16, this]

/-- The fetch raises at a PC above 0xFFE. -/
theorem fetch_outside (s : State) (h : 0xFFE < s.pc.toNat) :
    fetch s = .error (.addressOutOfRange (max s.pc.toNat 0x1000)) := by
  have : regionCheck s.pc.toNat 2 = some (.addressOutOfRange (max s.pc.toNat 0x1000)) :=
    MemoryLaws.regionCheck_some (by omega) (by unfold memSize; omega)
  simp [fetch, fetch16, this]

/-- A fetched word comes from a PC that two bytes fit behind. -/
theorem fetch_ok_pc {s : State} {w : Word} (h : fetch s = .ok w) :
    s.pc.toNat ≤ 0xFFE ∧ w = wordOfBytes (s.mem.read s.pc.toNat) (s.mem.read (s.pc.toNat + 1)) := by
  by_cases hp : s.pc.toNat ≤ 0xFFE
  · rw [fetch_inside s hp] at h
    exact ⟨hp, (Except.ok.inj h).symm⟩
  · rw [fetch_outside s (by omega)] at h
    exact absurd h (by simp)

/-- The unknown word in strict mode. -/
theorem unknownWord_strict (s : State) (w : Word) (h : s.params.unknownMode = .strict) :
    unknownWord s w = .next (s.halted (.unknownOpcode w s.pc)) := by
  simp [unknownWord, h, raise_eq]

/-- The unknown word in lenient mode. -/
theorem unknownWord_lenient (s : State) (w : Word) (h : s.params.unknownMode = .lenient) :
    unknownWord s w = .next s.advance := by
  simp [unknownWord, h]

/-- The poll with a key pressed. -/
theorem pollKey_pressed (x : Reg) (s : State) {k : Key} (h : s.anyPressed = some k) :
    pollKey x s = .next ((s.setReg x (keyByte k)).setWait none).advance := by
  simp [pollKey, h]

/-- The poll with no key pressed. -/
theorem pollKey_idle (x : Reg) (s : State) (h : s.anyPressed = none) : pollKey x s = .next s := by
  simp [pollKey, h]

/-- The five cases of a step, in their priority (60_exceptions.md R135). -/
theorem step_cases (s : State) :
    (∃ e, s.halt = some e ∧ step s = .next s) ∨
    (∃ x, s.halt = none ∧ s.wait = some x ∧ step s = pollKey x s) ∨
    (∃ e, s.halt = none ∧ s.wait = none ∧ fetch s = .error e ∧ step s = .next (s.halted e)) ∨
    (∃ w u, s.halt = none ∧ s.wait = none ∧ fetch s = .ok w ∧ decode w = .unknown u ∧ step s = unknownWord s u) ∨
    (∃ w i, s.halt = none ∧ s.wait = none ∧ fetch s = .ok w ∧ decode w = .instr i ∧ step s = exec i s) := by
  cases hh : s.halt with
  | some e => exact .inl ⟨e, rfl, by simp [step, hh]⟩
  | none =>
    cases hw : s.wait with
    | some x => exact .inr (.inl ⟨x, rfl, rfl, by simp [step, hh, hw]⟩)
    | none =>
      cases hf : fetch s with
      | error e => exact .inr (.inr (.inl ⟨e, rfl, rfl, rfl, by simp [step, hh, hw, runFetched, hf, raise_eq]⟩))
      | ok w =>
        cases hd : decode w with
        | unknown u =>
          exact .inr (.inr (.inr (.inl ⟨w, u, rfl, rfl, rfl, hd, by simp [step, hh, hw, runFetched, hf, runDecoded, hd]⟩)))
        | instr i =>
          exact .inr (.inr (.inr (.inr ⟨w, i, rfl, rfl, rfl, hd, by simp [step, hh, hw, runFetched, hf, runDecoded, hd]⟩)))

/-- The lowest pressed key: it is pressed and no lower one is. -/
theorem State.anyPressed_some {s : State} {k : Key} :
    s.anyPressed = some k ↔ s.isPressed k = true ∧ ∀ j : Key, j < k → s.isPressed j = false := by
  unfold State.anyPressed
  rw [List.find?_eq_some_iff_getElem]
  constructor
  · rintro ⟨hk, n, hn, hget, hlt⟩
    refine ⟨hk, fun j hj => ?_⟩
    have hnk : n = k.val := by
      have := congrArg Fin.val hget
      simpa using this
    have := hlt j.val (by rw [hnk]; exact hj)
    simpa using this
  · rintro ⟨hk, hlt⟩
    refine ⟨hk, k.val, by simp, by simp, fun j hj => ?_⟩
    have := hlt ⟨j, by omega⟩ hj
    simpa using this

/-- No key is pressed. -/
theorem State.anyPressed_none {s : State} : s.anyPressed = none ↔ ∀ k : Key, s.isPressed k = false := by
  simp [State.anyPressed, List.find?_eq_none]

end Sys2Proof.Machine
end

