-- ==== Sys2Proof/Laws/PerInstr.lean ====
section
/-!
SUPPORT. Statements made per instruction: the encoding carries the mask and match of the instruction's own row of
30_encoding.md R76.
-/

/-- The instruction's word under its row's mask is its row's match value. -/
def Sys2Proof.Laws.EncodingMask.Statement (i : Sys2Proof.Instr) : Prop :=
  Sys2Proof.encode i &&& Sys2Proof.rowMask i = Sys2Proof.rowMatch i

namespace Sys2Proof.Laws

theorem EncodingMask.sys (nnn : Addr12) : EncodingMask.Statement (.sys nnn) :=
  wordNNN_mask _ _ _ rfl

theorem EncodingMask.cls : EncodingMask.Statement (.cls) :=
  rfl

theorem EncodingMask.ret : EncodingMask.Statement (.ret) :=
  rfl

theorem EncodingMask.jp (nnn : Addr12) : EncodingMask.Statement (.jp nnn) :=
  wordNNN_mask _ _ _ rfl

theorem EncodingMask.call (nnn : Addr12) : EncodingMask.Statement (.call nnn) :=
  wordNNN_mask _ _ _ rfl

theorem EncodingMask.seImm (x : Reg) (kk : Byte) : EncodingMask.Statement (.seImm x kk) :=
  wordXKK_mask _ _ _ _ rfl

theorem EncodingMask.sneImm (x : Reg) (kk : Byte) : EncodingMask.Statement (.sneImm x kk) :=
  wordXKK_mask _ _ _ _ rfl

theorem EncodingMask.seReg (x : Reg) (y : Reg) : EncodingMask.Statement (.seReg x y) :=
  wordXYN_mask_low _ _ _ _ _ rfl

theorem EncodingMask.ldImm (x : Reg) (kk : Byte) : EncodingMask.Statement (.ldImm x kk) :=
  wordXKK_mask _ _ _ _ rfl

theorem EncodingMask.addImm (x : Reg) (kk : Byte) : EncodingMask.Statement (.addImm x kk) :=
  wordXKK_mask _ _ _ _ rfl

theorem EncodingMask.ldReg (x : Reg) (y : Reg) : EncodingMask.Statement (.ldReg x y) :=
  wordXYN_mask_low _ _ _ _ _ rfl

theorem EncodingMask.orReg (x : Reg) (y : Reg) : EncodingMask.Statement (.orReg x y) :=
  wordXYN_mask_low _ _ _ _ _ rfl

theorem EncodingMask.andReg (x : Reg) (y : Reg) : EncodingMask.Statement (.andReg x y) :=
  wordXYN_mask_low _ _ _ _ _ rfl

theorem EncodingMask.xorReg (x : Reg) (y : Reg) : EncodingMask.Statement (.xorReg x y) :=
  wordXYN_mask_low _ _ _ _ _ rfl

theorem EncodingMask.addReg (x : Reg) (y : Reg) : EncodingMask.Statement (.addReg x y) :=
  wordXYN_mask_low _ _ _ _ _ rfl

theorem EncodingMask.sub (x : Reg) (y : Reg) : EncodingMask.Statement (.sub x y) :=
  wordXYN_mask_low _ _ _ _ _ rfl

theorem EncodingMask.shr (x : Reg) (y : Reg) : EncodingMask.Statement (.shr x y) :=
  wordXYN_mask_low _ _ _ _ _ rfl

theorem EncodingMask.subn (x : Reg) (y : Reg) : EncodingMask.Statement (.subn x y) :=
  wordXYN_mask_low _ _ _ _ _ rfl

theorem EncodingMask.shl (x : Reg) (y : Reg) : EncodingMask.Statement (.shl x y) :=
  wordXYN_mask_low _ _ _ _ _ rfl

theorem EncodingMask.sneReg (x : Reg) (y : Reg) : EncodingMask.Statement (.sneReg x y) :=
  wordXYN_mask_low _ _ _ _ _ rfl

theorem EncodingMask.ldI (nnn : Addr12) : EncodingMask.Statement (.ldI nnn) :=
  wordNNN_mask _ _ _ rfl

theorem EncodingMask.jpV0 (nnn : Addr12) : EncodingMask.Statement (.jpV0 nnn) :=
  wordNNN_mask _ _ _ rfl

theorem EncodingMask.rnd (x : Reg) (kk : Byte) : EncodingMask.Statement (.rnd x kk) :=
  wordXKK_mask _ _ _ _ rfl

theorem EncodingMask.drw (x : Reg) (y : Reg) (n : Nibble) : EncodingMask.Statement (.drw x y n) :=
  wordXYN_mask _ _ _ _ _ rfl

theorem EncodingMask.skp (x : Reg) : EncodingMask.Statement (.skp x) :=
  wordXKK_mask_low _ _ _ _ rfl

theorem EncodingMask.sknp (x : Reg) : EncodingMask.Statement (.sknp x) :=
  wordXKK_mask_low _ _ _ _ rfl

theorem EncodingMask.ldVxDT (x : Reg) : EncodingMask.Statement (.ldVxDT x) :=
  wordXKK_mask_low _ _ _ _ rfl

theorem EncodingMask.ldVxK (x : Reg) : EncodingMask.Statement (.ldVxK x) :=
  wordXKK_mask_low _ _ _ _ rfl

theorem EncodingMask.ldDTVx (x : Reg) : EncodingMask.Statement (.ldDTVx x) :=
  wordXKK_mask_low _ _ _ _ rfl

theorem EncodingMask.ldSTVx (x : Reg) : EncodingMask.Statement (.ldSTVx x) :=
  wordXKK_mask_low _ _ _ _ rfl

theorem EncodingMask.addI (x : Reg) : EncodingMask.Statement (.addI x) :=
  wordXKK_mask_low _ _ _ _ rfl

theorem EncodingMask.ldF (x : Reg) : EncodingMask.Statement (.ldF x) :=
  wordXKK_mask_low _ _ _ _ rfl

theorem EncodingMask.ldB (x : Reg) : EncodingMask.Statement (.ldB x) :=
  wordXKK_mask_low _ _ _ _ rfl

theorem EncodingMask.ldMemVx (x : Reg) : EncodingMask.Statement (.ldMemVx x) :=
  wordXKK_mask_low _ _ _ _ rfl

theorem EncodingMask.ldVxMem (x : Reg) : EncodingMask.Statement (.ldVxMem x) :=
  wordXKK_mask_low _ _ _ _ rfl

end Sys2Proof.Laws
end

