-- ==== Sys2Proof/Tests/Slice0.lean ====
section
/-!
SUPPORT. The model's own tests. Every expected value is taken from the spec: the encodings of 30_encoding.md R76, and the
vectors S and T of 95_test_vectors.md, each named in its comment. Each test is one step on a small state.
-/

namespace Sys2Proof.Tests

open Sys2Proof.Machine

/-! ## Well-formed instructions -/

theorem test_wf_sys : (Instr.sys 0x123).wf = true := by decide
theorem test_ill_formed_sys_cls : (Instr.sys 0x0E0).wf = false := by decide
theorem test_ill_formed_sys_ret : (Instr.sys 0x0EE).wf = false := by decide

/-! ## Decoding: one word per row, written out from 30_encoding.md R76 -/

theorem test_decode_sys : decode 0x0123 = .instr (.sys 0x123) := by decide
theorem test_decode_sys_zero : decode 0x0000 = .instr (.sys 0x000) := by decide          -- T1
theorem test_decode_sys_near_cls : decode 0x00E1 = .instr (.sys 0x0E1) := by decide      -- T4
theorem test_decode_cls : decode 0b0000000011100000 = .instr .cls := by decide           -- T2
theorem test_decode_ret : decode 0b0000000011101110 = .instr .ret := by decide           -- T3
theorem test_decode_jp : decode 0x1204 = .instr (.jp 0x204) := by decide
theorem test_decode_call : decode 0x2210 = .instr (.call 0x210) := by decide
theorem test_decode_seImm : decode 0b0011001000010000 = .instr (.seImm 2 0x10) := by decide
theorem test_decode_sneImm : decode 0x4F21 = .instr (.sneImm 15 0x21) := by decide
theorem test_decode_seReg : decode 0x5AB0 = .instr (.seReg 10 11) := by decide
theorem test_decode_ldImm : decode 0x6005 = .instr (.ldImm 0 0x05) := by decide          -- S9
theorem test_decode_addImm : decode 0x7302 = .instr (.addImm 3 0x02) := by decide
theorem test_decode_ldReg : decode 0x8120 = .instr (.ldReg 1 2) := by decide
theorem test_decode_orReg : decode 0x8121 = .instr (.orReg 1 2) := by decide
theorem test_decode_andReg : decode 0x8122 = .instr (.andReg 1 2) := by decide
theorem test_decode_xorReg : decode 0x8123 = .instr (.xorReg 1 2) := by decide
theorem test_decode_addReg : decode 0b1000000100100100 = .instr (.addReg 1 2) := by decide
theorem test_decode_sub : decode 0x8125 = .instr (.sub 1 2) := by decide
theorem test_decode_shr : decode 0x8126 = .instr (.shr 1 2) := by decide
theorem test_decode_subn : decode 0x8127 = .instr (.subn 1 2) := by decide
theorem test_decode_shl : decode 0x812E = .instr (.shl 1 2) := by decide
theorem test_decode_sneReg : decode 0x9CD0 = .instr (.sneReg 12 13) := by decide
theorem test_decode_ldI : decode 0b1010001100000000 = .instr (.ldI 0x300) := by decide
theorem test_decode_jpV0 : decode 0xB123 = .instr (.jpV0 0x123) := by decide             -- T12
theorem test_decode_rnd : decode 0xC30F = .instr (.rnd 3 0x0F) := by decide
theorem test_decode_drw : decode 0b1101000100100101 = .instr (.drw 1 2 5) := by decide
theorem test_decode_skp : decode 0b1110001110011110 = .instr (.skp 3) := by decide
theorem test_decode_sknp : decode 0xE3A1 = .instr (.sknp 3) := by decide
theorem test_decode_ldVxDT : decode 0b1111010000000111 = .instr (.ldVxDT 4) := by decide
theorem test_decode_ldVxK : decode 0xF30A = .instr (.ldVxK 3) := by decide
theorem test_decode_ldDTVx : decode 0xF415 = .instr (.ldDTVx 4) := by decide
theorem test_decode_ldSTVx : decode 0xF118 = .instr (.ldSTVx 1) := by decide
theorem test_decode_addI : decode 0xF51E = .instr (.addI 5) := by decide
theorem test_decode_ldF : decode 0xF029 = .instr (.ldF 0) := by decide
theorem test_decode_ldB : decode 0xF033 = .instr (.ldB 0) := by decide
theorem test_decode_ldMemVx : decode 0xF355 = .instr (.ldMemVx 3) := by decide
theorem test_decode_ldVxMem : decode 0xF165 = .instr (.ldVxMem 1) := by decide           -- T11

/-- The unknown words T5, T6, T8, T9 and T10. -/
theorem test_decode_unknown :
    [0x5011#16, 0x8008#16, 0x9AB1#16, 0xE09F#16, 0xFFFF#16].map decode =
      [.unknown 0x5011, .unknown 0x8008, .unknown 0x9AB1, .unknown 0xE09F, .unknown 0xFFFF] := by decide

/-- Bytes: big-endian, two consumed, and one byte is no instruction (30_encoding.md R71, 20_memory.md R55). -/
theorem test_decodeBytes : (match decodeBytes [0x60, 0x05, 0xFF] with
    | .ok r => r == (.ldImm 0 5, [0xFF]) | .error _ => false) = true := by decide
theorem test_decodeBytes_truncated : (match decodeBytes [0x60] with
    | .ok _ => false | .error e => e == .truncated) = true := by decide

theorem test_encode_drw : encode (.drw 1 2 5) = 0xD125 := by decide
theorem test_encode_ldVxMem : encodeBytes (.ldVxMem 2) = [0xF2, 0x65] := by decide
theorem test_decodeTableWord : decodeTableWord 16 0x812E = some (.shl 1 2) := by decide

/-! ## One step: the start state and settings of 95_test_vectors.md -/

/-- Strict, VY, no increment, 4096. -/
def testParams : Params :=
  { unknownMode := .strict, shiftSource := .vy, loadStoreIncrement := false, iWrap := .at4096 }

/-- The reset state under the settings of the vectors. -/
def start : State := { State.reset with params := testParams }

/-- Some registers set. -/
def setRegs (s : State) (l : List (Reg × Byte)) : State := l.foldl (fun t p => t.setReg p.1 p.2) s

/-- Bytes placed. -/
def place (s : State) (a : Nat) (l : List Byte) : State := s.setMem (s.mem.writeBytes a l)

/-- One step on the word, and what the next state must satisfy. -/
def after (s : State) (w : Nat) (p : State → Bool) : Bool :=
  match step (s.withFetchWord 16 w) with
  | .next t => p t
  | .fault _ => false
  | .refused _ => false

/-! ### Control, 40_control.md -/

theorem test_sys : after start 0x0123 (fun t => t.pc == 0x202) = true := by decide            -- T20
theorem test_jp : after { start with pc := 0x208 } 0x1204 (fun t => t.pc == 0x204) = true := by decide  -- T21
theorem test_call : after { start with pc := 0x204 } 0x2210
    (fun t => t.pc == 0x210 && t.sp == 1 && t.stack[0] == 0x206) = true := by decide          -- T23
theorem test_call_overflow : after { start with sp := 16 } 0x2300
    (fun t => t.pc == 0x200 && t.sp == 16 && t.halt == some (.stackOverflow 0x200)) = true := by decide  -- T25
theorem test_ret : after { start with sp := 1, stack := start.stack.set 0 0x206 } 0x00EE
    (fun t => t.pc == 0x206 && t.sp == 0 && t.stack[0] == 0x206) = true := by decide          -- T26
theorem test_ret_underflow : after start 0x00EE
    (fun t => t.pc == 0x200 && t.halt == some (.stackUnderflow 0x200)) = true := by decide    -- T27
theorem test_jpV0 : after (start.setReg 0 0xFF) 0xBFFF (fun t => t.pc == 0x10FE) = true := by decide  -- T31

/-! ### Skips, 41_skip.md -/

theorem test_seImm : after (start.setReg 2 0x10) 0x3210 (fun t => t.pc == 0x204) = true := by decide   -- T32
theorem test_seImm_not : after (start.setReg 2 0x11) 0x3210 (fun t => t.pc == 0x202) = true := by decide  -- T33
theorem test_sneImm : after (start.setReg 2 0x11) 0x4210 (fun t => t.pc == 0x204) = true := by decide  -- T34
theorem test_seReg : after (setRegs start [(0, 5), (1, 5)]) 0x5010 (fun t => t.pc == 0x204) = true := by decide  -- T36
theorem test_sneReg : after (setRegs start [(0, 4), (1, 5)]) 0x9010 (fun t => t.pc == 0x204) = true := by decide  -- T38

/-! ### Arithmetic, 42_alu.md -/

theorem test_ldImm : after start 0x6005 (fun t => t.reg 0 == 5 && t.pc == 0x202) = true := by decide   -- S9
theorem test_addImm : after (start.setReg 3 0xFF) 0x7302 (fun t => t.reg 3 == 1 && t.reg 15 == 0) = true := by decide  -- T43
theorem test_ldReg : after (start.setReg 1 0x42) 0x8010 (fun t => t.reg 0 == 0x42) = true := by decide  -- T45
theorem test_orReg : after (setRegs start [(0, 0x0C), (1, 0x0A), (15, 5)]) 0x8011
    (fun t => t.reg 0 == 0x0E && t.reg 15 == 5) = true := by decide                                    -- T46
theorem test_andReg : after (setRegs start [(0, 0x0C), (1, 0x0A)]) 0x8012 (fun t => t.reg 0 == 8) = true := by decide  -- T47
theorem test_xorReg : after (setRegs start [(0, 0x0C), (1, 0x0A)]) 0x8013 (fun t => t.reg 0 == 6) = true := by decide  -- T48
theorem test_addReg_256 : after (setRegs start [(0, 0x80), (1, 0x80)]) 0x8014
    (fun t => t.reg 0 == 0 && t.reg 15 == 1) = true := by decide                                       -- T51
theorem test_addReg_vf : after (setRegs start [(15, 0x01), (0, 0xFF)]) 0x8F04
    (fun t => t.reg 15 == 1 && t.reg 0 == 0xFF) = true := by decide                                    -- T53
theorem test_sub_equal : after (setRegs start [(0, 7), (1, 7)]) 0x8015
    (fun t => t.reg 0 == 0 && t.reg 15 == 1) = true := by decide                                       -- T55
theorem test_sub_borrow : after (setRegs start [(0, 2), (1, 3)]) 0x8015
    (fun t => t.reg 0 == 0xFF && t.reg 15 == 0) = true := by decide                                    -- T57
theorem test_shr_vy : after (setRegs start [(0, 0x10), (1, 3)]) 0x8016
    (fun t => t.reg 0 == 1 && t.reg 15 == 1 && t.reg 1 == 3) = true := by decide                       -- T62
theorem test_shr_vx : after (setRegs { start with params := { testParams with shiftSource := .vx } } [(0, 0x10), (1, 3)]) 0x8016
    (fun t => t.reg 0 == 8 && t.reg 15 == 0) = true := by decide                                       -- T63
theorem test_subn : after (setRegs start [(0, 5), (1, 3)]) 0x8017
    (fun t => t.reg 0 == 0xFE && t.reg 15 == 0) = true := by decide                                    -- T60
theorem test_shl_vy : after (setRegs start [(0, 0x01), (1, 0x81)]) 0x801E
    (fun t => t.reg 0 == 2 && t.reg 15 == 1) = true := by decide                                       -- T64
theorem test_shl_vf : after (start.setReg 0 0x80) 0x8F0E (fun t => t.reg 15 == 1) = true := by decide  -- T67

/-- T70, for any oracle: a byte is drawn even for kk = 0. -/
theorem test_rnd_zero_mask : after start 0xC000 (fun t => t.draws == 1 && t.pc == 0x202) = true := by decide
/-- T69: the oracle's byte 0xA7 under the mask 0x0F. -/
theorem test_rnd (h : Config.rng 0 = 0xA7) : ∃ t, exec (.rnd 3 0x0F) start = .next t ∧ t.reg 3 = 0x07 :=
  ⟨_, rfl, by simp [State.advance, State.setPc, State.countDraw, State.setReg, State.reg, State.randomByte, start, State.reset, h]⟩

/-! ### Index and memory, 43_index_memory.md -/

theorem test_ldI : after start 0xA300 (fun t => t.i == 0x300) = true := by decide                      -- T71
theorem test_addI_4096 : after ({ start with i := 0xFFF }.setReg 0 1) 0xF01E
    (fun t => t.i == 0 && t.reg 15 == 0) = true := by decide                                           -- T73
theorem test_addI_65536 : after ({ start with i := 0xFFF, params := { testParams with iWrap := .at65536 } }.setReg 0 1) 0xF01E
    (fun t => t.i == 0x1000) = true := by decide                                                       -- T74
theorem test_ldF : after (start.setReg 1 0x1A) 0xF129 (fun t => t.i == 0x032) = true := by decide      -- T76
theorem test_ldB : after ({ start with i := 0x300 }.setReg 0 0xFE) 0xF033
    (fun t => t.mem.readBytes 0x300 3 == [2, 5, 4] && t.i == 0x300) = true := by decide                -- T78
theorem test_ldB_edge : after ({ start with i := 0xFFE }.setReg 0 0x64) 0xF033
    (fun t => t.halt == some (.addressOutOfRange 0x1000) && t.mem.read 0xFFE == 0 && t.pc == 0x200) = true := by decide  -- T82
theorem test_ldMemVx : after (setRegs { start with i := 0x300 } [(0, 1), (1, 2), (2, 3), (3, 4)]) 0xF355
    (fun t => t.mem.readBytes 0x300 5 == [1, 2, 3, 4, 0] && t.i == 0x300) = true := by decide          -- S10
theorem test_ldMemVx_increment : after (setRegs { start with i := 0xFFE, params := { testParams with loadStoreIncrement := true } }
    [(0, 1), (1, 2)]) 0xF155 (fun t => t.mem.readBytes 0xFFE 2 == [1, 2] && t.i == 0) = true := by decide  -- T85
theorem test_ldVxMem : after (place { start with i := 0x300, params := { testParams with loadStoreIncrement := true } } 0x300 [2, 5, 4])
    0xF265 (fun t => t.reg 0 == 2 && t.reg 1 == 5 && t.reg 2 == 4 && t.reg 3 == 0 && t.i == 0x303) = true := by decide  -- T88
theorem test_ldVxMem_range : after { start with i := 0x1000, params := { testParams with iWrap := .at65536 } } 0xF065
    (fun t => t.halt == some (.addressOutOfRange 0x1000) && t.i == 0x1000) = true := by decide         -- T89

/-! ### Timers, 44_timers.md and 60_exceptions.md -/

theorem test_ldVxDT : after { start with dt := 0x3C } 0xF407 (fun t => t.reg 4 == 0x3C) = true := by decide  -- T90
theorem test_ldDTVx : after (start.setReg 4 3) 0xF415 (fun t => t.dt == 3 && t.tick.dt == 2) = true := by decide  -- T91
theorem test_ldSTVx : after (start.setReg 1 5) 0xF118 (fun t => t.st == 5 && t.soundActive) = true := by decide  -- T92
theorem test_tick_zero : (start.tick.dt, start.tick.st) = (0, 0) := by decide                          -- T93

/-! ### Display, 45_display.md -/

theorem test_cls : after { start with fb := start.fb.flip 3 4 } 0x00E0
    (fun t => t.fb == Framebuffer.clear && t.reg 15 == 0 && t.pc == 0x202) = true := by decide         -- T96, S8
theorem test_drw_wrap : after (place (setRegs { start with i := 0x300 } [(0, 0x7C), (1, 0x21)]) 0x300 [0xFF]) 0xD011
    (fun t => t.fb.pixel 59 1 == false && t.fb.pixel 60 1 && t.fb.pixel 63 1 && t.fb.pixel 0 1 && t.fb.pixel 3 1 &&
      t.fb.pixel 4 1 == false && t.reg 15 == 0) = true := by decide                                    -- T101
theorem test_drw_collision : after (place (setRegs { start with i := 0x300, fb := start.fb.flip 63 0 } [(0, 0x3F)]) 0x300 [0x80]) 0xD011
    (fun t => t.fb == Framebuffer.clear && t.reg 15 == 1) = true := by decide                          -- T98

/-! ### Input, 46_input.md -/

theorem test_skp : after ({ start with key := start.key.set 7 true }.setReg 3 0x17) 0xE39E (fun t => t.pc == 0x204) = true := by decide  -- T107
theorem test_sknp : after ({ start with key := start.key.set 7 true }.setReg 3 0x17) 0xE3A1 (fun t => t.pc == 0x202) = true := by decide  -- T108
theorem test_ldVxK_lowest : after { start with key := (start.key.set 4 true).set 12 true } 0xF50A
    (fun t => t.reg 5 == 4 && t.pc == 0x202 && t.wait == none) = true := by decide                     -- T110
theorem test_ldVxK_wait : after start 0xF30A (fun t => t.wait == some 3 && t.pc == 0x200) = true := by decide  -- T111

/-! ### The step cycle, 30_encoding.md -/

theorem test_unknown_strict : after start 0x5011
    (fun t => t.halt == some (.unknownOpcode 0x5011 0x200) && t.pc == 0x200) = true := by decide       -- T13
theorem test_unknown_lenient : after { start with params := { testParams with unknownMode := .lenient } } 0x5011
    (fun t => t.halt == none && t.pc == 0x202) = true := by decide                                     -- T14
theorem test_log_lenient : ({ start with params := { testParams with unknownMode := .lenient } }.withFetchWord 16 0x5011).stepLog =
    some { word := 0x5011, pc := 0x200 } := by decide                                                  -- T14
theorem test_fetch_range : (match step { start with pc := 0xFFF } with
    | .next t => t.halt == some (.addressOutOfRange 0x1000) && t.pc == 0xFFF
    | .fault _ => false | .refused _ => false) = true := by decide                                     -- T16
theorem test_fetch_odd : after { start with pc := 0x201 } 0x6007 (fun t => t.reg 0 == 7 && t.pc == 0x203) = true := by decide  -- T18

/-! ### Reset and load, 70_reset_and_hazards.md -/

theorem test_reset_font : State.reset.mem.readBytes 0x04B 6 = [0xF0, 0x80, 0xF0, 0x80, 0x80, 0x00] := by decide  -- T115
theorem test_font_length : font.length = 80 := by decide
theorem test_load_empty : (match (System.powerUp testParams).load [] with
    | .next (c, r) => c.core == start && r == .loadOk
    | .fault _ => false | .refused _ => false) = true := by decide                                     -- T118
theorem test_load_twice : (match ({ System.powerUp testParams with phase := .loaded } : System).load [] with
    | .refused r => r == .loadRomOutsideContract
    | .next _ => false | .fault _ => false) = true := by decide
theorem test_key_index : (match (System.powerUp testParams).setKey 16 true with
    | .refused r => r == .keyIndexOutsideContract
    | .next _ => false | .fault _ => false) = true := by decide

/-! ## Assembler lines, 30_encoding.md R87, R88 -/

theorem test_parse_ldImm : parseInstr "LD V0,0x05".toList = some (.ldImm 0 5) := by decide
theorem test_parse_drw : parseInstr "DRW V1, VA, 5".toList = some (.drw 1 10 5) := by decide
theorem test_parse_ldMemVx : parseInstr "LD [I], V3".toList = some (.ldMemVx 3) := by decide
theorem test_parse_shr_short : parseInstr "SHR V1".toList = some (.shr 1 0) := by decide
theorem test_parse_bad_shape : parseInstr "JP V1, 0x300".toList = none := by decide
theorem test_text_jpV0 : (Instr.jpV0 0x300).text = "JP V0, 0x300".toList := by decide

/-! ## Witnesses: a state and operands that meet the hypotheses of each obligation together

Each name is the obligation's. Where a statement has clauses, each has its witness, at the boundary of its range. -/

theorem witness_DecodeOfEncode : (Instr.sys 0xFFF).wf = true := by decide
theorem witness_EncodeOfDecode : decode 0xF265 = .instr (.ldVxMem 2) ∧ decode 0x5011 = .unknown 0x5011 := by decide
theorem witness_OpcodeRowsDoNotOverlap :
    0x8124#16 &&& rowMask (.addReg 1 2) = rowMatch (.addReg 1 2) ∧ 0x8124#16 &&& rowMask (.addReg 3 4) = rowMatch (.addReg 3 4) ∧
    0x00E0#16 &&& rowMask .cls = rowMatch .cls ∧ 0x00E0#16 &&& rowMask (.sys 1) = rowMatch (.sys 1) := by decide
theorem witness_AssemblyLinesSpellInstructions : (Instr.sys 0x0EF).wf = true := by decide

/-- The last address two bytes fit behind. -/
def lastFetch (w : Nat) : State := { start with pc := 0xFFE }.withFetchWord 16 w

theorem witness_StepRunsDecodedInstruction : (lastFetch 0x6005).halt = none ∧ (lastFetch 0x6005).wait = none ∧
    (lastFetch 0x6005).pc.toNat ≤ 0xFFE ∧
    decode (wordOfBytes ((lastFetch 0x6005).mem.read 0xFFE) ((lastFetch 0x6005).mem.read 0xFFF)) = .instr (.ldImm 0 5) := by decide
theorem witness_HaltedStepRepeatsError :
    ({ start with halt := some (.stackUnderflow 0x200) } : State).halt = some (.stackUnderflow 0x200) := rfl
theorem witness_FetchOutOfRangeHalts : ({ start with pc := 0xFFF } : State).halt = none ∧
    ({ start with pc := 0xFFF } : State).wait = none ∧ 0xFFE < ({ start with pc := 0xFFF } : State).pc.toNat := by decide
theorem witness_UnknownWordFollowsMode_strict : (lastFetch 0xFFFF).halt = none ∧ (lastFetch 0xFFFF).wait = none ∧
    (lastFetch 0xFFFF).pc.toNat ≤ 0xFFE ∧ (lastFetch 0xFFFF).params.unknownMode = .strict ∧
    decode (wordOfBytes ((lastFetch 0xFFFF).mem.read 0xFFE) ((lastFetch 0xFFFF).mem.read 0xFFF)) = .unknown 0xFFFF := by decide
theorem witness_UnknownWordFollowsMode_lenient :
    ({ lastFetch 0xFFFF with params := { testParams with unknownMode := .lenient } } : State).params.unknownMode = .lenient := rfl

/-- A wait on V3. -/
def waiting : State := { start with wait := some 3 }

/-- A wait on V3 with key 15 pressed and no lower one. -/
def waitingKey15 : State := { waiting with key := waiting.key.set 15 true }

theorem witness_PollTakesLowestKey : waiting.halt = none ∧ waiting.wait = some 3 ∧ (∀ k : Key, waiting.key[k.val] = false) ∧
    waitingKey15.key[15] = true ∧ (∀ j : Key, j < 15 → waitingKey15.key[j.val] = false) := by decide
theorem witness_KeyLoadTakesOrWaits : (∀ k : Key, start.key[k.val] = false) ∧ waitingKey15.key[15] = true ∧
    (∀ j : Key, j < 15 → waitingKey15.key[j.val] = false) := by decide
theorem witness_RaisedErrorCommitsNothing :
    exec .ret start = .next (start.halted (.stackUnderflow 0x200)) ∧ (start.halted (.stackUnderflow 0x200)).halt ≠ start.halt ∧
    step { start with pc := 0x1000 } = .next ({ start with pc := 0x1000 }.halted (.addressOutOfRange 0x1000)) :=
  ⟨rfl, by decide, rfl⟩
theorem witness_OnlyListedInstructionsRaise_call :
    exec (.call 0x300) { start with sp := 16 } = .next ({ start with sp := 16 }.halted (.stackOverflow 0x200)) := rfl
theorem witness_OnlyListedInstructionsRaise_drw :
    exec (.drw 0 1 1) { start with i := 0x1000 } = .next ({ start with i := 0x1000 }.halted (.addressOutOfRange 0x1000)) := rfl
theorem witness_OnlyListedInstructionsRaise_ldB :
    exec (.ldB 0) { start with i := 0xFFE } = .next ({ start with i := 0xFFE }.halted (.addressOutOfRange 0x1000)) := rfl
theorem witness_OnlyListedInstructionsRaise_ldMemVx :
    exec (.ldMemVx 15) { start with i := 0xFF1 } = .next ({ start with i := 0xFF1 }.halted (.addressOutOfRange 0x1000)) := rfl

/-- The last byte of the font, the first byte after it and the last byte of memory. -/
theorem witness_ResetMemoryAndHiddenState : 79 < 80 ∧ State.reset.mem.read 79 = 0x80 ∧ 80 ≤ 80 ∧ State.reset.mem.read 80 = 0 ∧
    0xFFF < 0x1000 ∧ State.reset.mem.read 0xFFF = 0 := by decide

theorem witness_CallPushesReturnAddress : ({ start with sp := 15 } : State).sp.val < 16 ∧
    ({ start with sp := 16 } : State).sp.val = 16 := by decide
theorem witness_RetPopsReturnAddress : 0 < ({ start with sp := 1 } : State).sp.val ∧ start.sp.val = 0 := by decide
theorem witness_CallThenRetReturns : ({ start with sp := 15 } : State).sp.val < 16 := by decide
theorem witness_SeventeenthCallOverflows : start.sp = 0 ∧ (List.replicate 16 (0x200 : Addr12)).length = 16 := by decide
theorem witness_SkipOnKey : (7 : Key).val = ((start.setReg 3 0x17).reg 3).toNat % 16 := by decide
theorem witness_AddSetsCarry : (14 : Reg) ≠ vF := by decide
theorem witness_SubtractSetsNotBorrow : (0 : Reg) ≠ vF := by decide
theorem witness_ShiftSetsBitOut : (0 : Reg) ≠ vF ∧
    3 = (if (start.setReg 1 3).params.shiftSource = .vy then ((start.setReg 1 3).reg 1).toNat else ((start.setReg 1 3).reg 0).toNat) := by
  decide
theorem witness_OnlyFlagWritersTouchVf : start.halt = none ∧ exec (.jp 0x300) start = .next (start.setPc 0x300) ∧
    writesFlag (.jp 0x300) = false ∧ writesResult vF (.jp 0x300) = false ∧ exec (.drw 0 0 0) start = .next start.advance ∧
    writesFlag (.drw 0 0 0) = true ∧ start.advance.halt = none := ⟨rfl, rfl, rfl, rfl, rfl, rfl, rfl⟩

theorem witness_BcdDigitsStored : start.mem.wf = true ∧ ({ start with i := 0xFFD } : State).i.toNat + 2 ≤ 0xFFF ∧
    0xFFF < ({ start with i := 0xFFE } : State).i.toNat + 2 := by decide
theorem witness_RegistersStored : start.mem.wf = true ∧ ({ start with i := 0xFF0 } : State).i.toNat + (15 : Reg).val ≤ 0xFFF ∧
    0xFFF < ({ start with i := 0xFF1 } : State).i.toNat + (15 : Reg).val := by decide
theorem witness_RegistersLoaded : ({ start with i := 0xFFF } : State).i.toNat + (0 : Reg).val ≤ 0xFFF ∧
    0xFFF < ({ start with i := 0x1000 } : State).i.toNat + (0 : Reg).val := by decide
theorem witness_StoreThenLoadRestores : start.mem.wf = true ∧ ({ start with i := 0xFF0 } : State).i.toNat + (15 : Reg).val ≤ 0xFFF := by
  decide

/-- LD [I], V1 at 0xFFC with I at the next instruction, the last place this fits; V0 and V1 spell JP 0x300. -/
def selfWriter : State :=
  setRegs ({ start with pc := 0xFFC, i := 0xFFE }.withFetchWord 16 0xF155) [(0, 0x13), (1, 0x00)]

theorem witness_StoreSeenByNextFetch : selfWriter.mem.wf = true ∧ selfWriter.halt = none ∧ selfWriter.wait = none ∧
    1 ≤ (1 : Reg).val ∧ selfWriter.pc.toNat + 2 + (1 : Reg).val ≤ 0xFFF ∧ selfWriter.i.toNat = selfWriter.pc.toNat + 2 ∧
    decode (wordOfBytes (selfWriter.mem.read selfWriter.pc.toNat) (selfWriter.mem.read (selfWriter.pc.toNat + 1))) =
      .instr (.ldMemVx 1) ∧
    decode (wordOfBytes (selfWriter.reg 0) (selfWriter.reg 1)) = .instr (.jp 0x300) := by decide

theorem witness_DrawXorsSprite : ({ start with i := 0xFF1 } : State).i.toNat + (15 : Nibble).toNat ≤ 0x1000 := by decide
theorem witness_DrawOutOfRangeOrEmpty : 0 < (15 : Nibble).toNat ∧
    0xFFF < ({ start with i := 0xFF2 } : State).i.toNat + (15 : Nibble).toNat - 1 ∧ (0 : Nibble).toNat = 0 := by decide
/-- The state after the first draw is itself the state of the second. -/
theorem witness_DrawTwiceRestores : ∃ t, start.i.toNat + (5 : Nibble).toNat ≤ 0x1000 ∧ exec (.drw 0 1 5) start = .next t ∧
    t.fb = t.fb ∧ t.mem = start.mem ∧ t.i = start.i ∧ t.reg 0 = start.reg 0 ∧ t.reg 1 = start.reg 1 ∧
    start.fb = Framebuffer.clear :=
  ⟨_, by decide, rfl, rfl, rfl, rfl, rfl, rfl, rfl⟩

/-- A halted core and a waiting one, with the timers at their bounds: the tick acts in both. -/
theorem witness_TickCountsDown : ({ start with halt := some (.stackUnderflow 0x200), dt := 0xFF, st := 0 } : State).dt.toNat > 0 ∧
    ¬ ({ start with halt := some (.stackUnderflow 0x200), dt := 0xFF, st := 0 } : State).st.toNat > 0 ∧ waiting.wait = some 3 := by
  decide
/-- RND reaches no quirk. -/
theorem witness_QuirkFreeIgnoresParameters_rnd : QuirkFree start (.rnd 3 0x0F) := trivial
theorem witness_SetKeyWritesLatch : 15 < 16 ∧ 16 ≤ 16 := by decide
theorem witness_LoadRomPlacesBytes : (System.powerUp testParams).phase = .fresh ∧ (System.powerUp testParams).core.mem.wf = true ∧
    (List.replicate 3584 (0xFF : Byte)).length ≤ 3584 ∧ 3584 < (List.replicate 3585 (0xFF : Byte)).length ∧
    ({ System.powerUp testParams with phase := .loaded } : System).phase ≠ .fresh :=
  ⟨rfl, rfl, le_of_eq List.length_replicate, lt_of_lt_of_eq (Nat.lt_succ_self 3584) List.length_replicate.symm, by decide⟩

/-- The invariant at the start state. -/
theorem start_inv : start.Inv where
  memWf := rfl
  pcBound := by decide
  stackBound := by decide
  indexBound := fun _ => by decide
  haltFatal := fun e h => by cases h
  waitAtKeyLoad := fun x h => by cases h

theorem witness_StepKeepsInvariant : start.Inv ∧ step start = .next start.advance := ⟨start_inv, rfl⟩
theorem witness_EventsKeepInvariant : (System.powerUp testParams).Inv ∧
    (System.powerUp testParams).event .tick = .next ({ core := start.tick, phase := .fresh }, .done) :=
  ⟨⟨start_inv, fun _ => ⟨rfl, rfl, rfl, rfl⟩⟩, rfl⟩
theorem witness_OnlyNamedInstructionsWrite : exec (.ldI 0x300) start = .next (start.setI 0x300).advance ∧
    (start.setI 0x300).advance.i ≠ start.i ∧ exec (.ldDTVx 0) (start.setReg 0 1) = .next ((start.setReg 0 1).setDt 1).advance ∧
    ((start.setReg 0 1).setDt 1).advance.dt ≠ (start.setReg 0 1).dt ∧
    exec (.ldVxK 3) start = .next (start.setWait (some 3)) ∧ (start.setWait (some 3)).wait ≠ start.wait :=
  ⟨rfl, by decide, rfl, by decide, rfl, by decide⟩
theorem witness_QuirkFreeIgnoresParameters : QuirkFree start (.shr 1 1) ∧ QuirkFree start (.drw 0 1 15) ∧
    QuirkFree ({ start with i := 0xFFE }.setReg 0 1) (.addI 0) := by
  refine ⟨rfl, trivial, ?_⟩
  show (0xFFE : Word).toNat + (1 : Byte).toNat ≤ 0xFFF
  decide

/-- A run whose core has halted. -/
def haltedRun : System := { core := { start with halt := some (.stackUnderflow 0x200) }, phase := .running }

theorem witness_HaltIsFinalUntilReset : haltedRun.phase = .running ∧ haltedRun.core.halt = some (.stackUnderflow 0x200) ∧
    Event.reset ∉ [Event.step, Event.tick, Event.setKey 15 true] ∧
    ∃ d, haltedRun.run [Event.step, Event.tick, Event.setKey 15 true] = .next d :=
  ⟨rfl, rfl, by decide, _, rfl⟩

/-- JP 0x200 at 0x200. -/
def parked : State := start.withFetchWord 16 0x1200

theorem witness_EndStatesAreFixed_faulted : haltedRun.core.Faulted := rfl
theorem witness_EndStatesAreFixed_parked : parked.Parked := ⟨rfl, rfl, 0x200, rfl, by decide⟩
theorem witness_EndStatesAreFixed_waiting : waiting.Waiting := ⟨rfl, ⟨3, rfl⟩, by decide⟩

end Sys2Proof.Tests
end

section
/-!
PROOFS. What the reset leaves in the vector-shaped parts of the state (10_state.md R37, R43, R44), and O15.
-/
namespace Sys2Proof.Machine

@[simp] theorem State.reset_reg (r : Reg) : State.reset.reg r = 0 := Vector.getElem_replicate r.isLt

theorem State.reset_fb : State.reset.fb = Framebuffer.clear := rfl

@[simp] theorem State.reset_pixel (x : Fin 64) (y : Fin 32) : State.reset.fb.pixel x y = false := by
  rw [State.reset_fb, Framebuffer.clear_pixel]

@[simp] theorem State.reset_key (k : Key) : State.reset.key[k.val] = false := Vector.getElem_replicate k.isLt

end Sys2Proof.Machine

namespace Sys2Proof.Proofs
open Sys2Proof.Machine

/-- Settles O15: the registers, pixels and keys by their reset laws, the scalar fields as the reset record writes them. -/
theorem resetStateValues : Obligations.ResetStateValues :=
  ⟨State.reset_reg, rfl, rfl, rfl, rfl, rfl, State.reset_pixel, State.reset_key⟩

end Sys2Proof.Proofs
end

section
/-!
PROOFS. What setting PC leaves unchanged, JP's equation, and O19 (40_control.md R91).
-/
namespace Sys2Proof.Machine

theorem State.setPc_onlyPc (s : State) (a : Word) : OnlyPc s (s.setPc a) :=
  have regs : SameRegsExcept [] s (s.setPc a) := fun r _ => s.setPc_reg a r
  have stack : SameStack s (s.setPc a) := ⟨s.setPc_sp a, s.setPc_stack a⟩
  have timers : SameTimers s (s.setPc a) := ⟨s.setPc_dt a, s.setPc_st a⟩
  have memory : SameMemory s (s.setPc a) := fun b => congrArg (·.read b) (s.setPc_mem a)
  have control : SameControl s (s.setPc a) :=
    ⟨s.setPc_key a, s.setPc_params a, s.setPc_draws a, s.setPc_halt a, s.setPc_wait a⟩
  ⟨regs, s.setPc_i a, stack, timers, s.setPc_fb a, memory, control⟩

theorem exec_jp (nnn : Addr12) (s : State) : exec (.jp nnn) s = .next (s.setPc (addrOfNNN nnn)) := rfl

end Sys2Proof.Machine

namespace Sys2Proof.Proofs
open Sys2Proof.Machine

/-- Settles O19: JP only sets PC, and the address it sets has the operand's value. -/
theorem jumpSetsPc : Obligations.JumpSetsPc := fun nnn s =>
  ⟨s.setPc (addrOfNNN nnn), exec_jp nnn s, addrOfNNN_toNat nnn, s.setPc_onlyPc (addrOfNNN nnn)⟩

end Sys2Proof.Proofs
end

section
/-!
PROOFS. The skip rule as every conditional skip uses it (41_skip.md R94), the equations of SE and SNE, and O25 and O26
(R95 to R98).
-/
namespace Sys2Proof.Machine

theorem State.skip_onlyPc (s : State) (taken : Bool) : OnlyPc s (s.skip taken) :=
  s.setPc_onlyPc (if taken then s.pc + 4 else s.pc + 2)

/-- An instruction that ends in `skip` on a test deciding `p` skips exactly under `p`. -/
theorem exec_skips_iff {ins : Instr} {s : State} {taken : Bool} {p : Prop} [Decidable p]
    (hexec : exec ins s = .next (s.skip taken)) (htest : taken = true ↔ p) :
    ∃ t, exec ins s = .next t ∧ t.pc = (if p then s.pc + 4 else s.pc + 2) ∧ OnlyPc s t :=
  have pc : (s.skip taken).pc = if p then s.pc + 4 else s.pc + 2 :=
    (s.skip_pc taken).trans (if_congr htest rfl rfl)
  ⟨s.skip taken, hexec, pc, s.skip_onlyPc taken⟩

theorem exec_seImm (x : Reg) (kk : Byte) (s : State) : exec (.seImm x kk) s = .next (s.skip (s.reg x == kk)) := rfl
theorem exec_sneImm (x : Reg) (kk : Byte) (s : State) : exec (.sneImm x kk) s = .next (s.skip (s.reg x != kk)) := rfl
theorem exec_seReg (x y : Reg) (s : State) : exec (.seReg x y) s = .next (s.skip (s.reg x == s.reg y)) := rfl
theorem exec_sneReg (x y : Reg) (s : State) : exec (.sneReg x y) s = .next (s.skip (s.reg x != s.reg y)) := rfl

end Sys2Proof.Machine

namespace Sys2Proof.Proofs
open Sys2Proof.Machine

/-- Settles O25: SE and SNE with a byte are skips whose tests decide equality and inequality with it. -/
theorem skipOnByte : Obligations.SkipOnByte := fun x kk s =>
  ⟨exec_skips_iff (exec_seImm x kk s) beq_iff_eq, exec_skips_iff (exec_sneImm x kk s) bne_iff_ne⟩

/-- Settles O26: SE and SNE with two registers are skips whose tests decide their equality and inequality. -/
theorem skipOnRegister : Obligations.SkipOnRegister := fun x y s =>
  ⟨exec_skips_iff (exec_seReg x y s) beq_iff_eq, exec_skips_iff (exec_sneReg x y s) bne_iff_ne⟩

end Sys2Proof.Proofs
end

section
/-!
PROOFS. What a register write leaves unchanged, what the two register commits of 42_alu.md do (a plain result, and a result
with its flag in VF), the equations of the loads, sums, logic and differences, and O28 to O32 (R101 to R108, R110).
-/
namespace Sys2Proof.Machine

theorem State.setReg_onlyRegsAndPc (s : State) (x : Reg) (b : Byte) : OnlyRegsAndPc s (s.setReg x b) :=
  have stack : SameStack s (s.setReg x b) := ⟨s.setReg_sp x b, s.setReg_stack x b⟩
  have timers : SameTimers s (s.setReg x b) := ⟨s.setReg_dt x b, s.setReg_st x b⟩
  have memory : SameMemory s (s.setReg x b) := fun a => congrArg (·.read a) (s.setReg_mem x b)
  have control : SameControl s (s.setReg x b) :=
    ⟨s.setReg_key x b, s.setReg_params x b, s.setReg_draws x b, s.setReg_halt x b, s.setReg_wait x b⟩
  ⟨s.setReg_i x b, stack, timers, s.setReg_fb x b, memory, control⟩

/-- The advance is outside this frame: it writes PC alone. -/
theorem OnlyRegsAndPc.advance {s t : State} (h : OnlyRegsAndPc s t) : OnlyRegsAndPc s t.advance := h

/-- A second register write stays in the frame of the first. -/
theorem OnlyRegsAndPc.setReg {s t : State} (h : OnlyRegsAndPc s t) (x : Reg) (b : Byte) :
    OnlyRegsAndPc s (t.setReg x b) := h

/-- An instruction that commits `b` to Vx leaves Vx with whatever holds of `b`, and writes nothing else but PC. -/
theorem exec_writes_result {ins : Instr} {s : State} {x : Reg} {b : Byte} (P : Byte → Prop)
    (hexec : exec ins s = .next (s.setReg x b).advance) (hb : P b) :
    ∃ t, exec ins s = .next t ∧ P (t.reg x) ∧ t.pc = s.pc + 2 ∧ SameRegsExcept [x] s t ∧ OnlyRegsAndPc s t :=
  have result : P ((s.setReg x b).advance.reg x) := (s.setReg_reg_same x b).symm ▸ hb
  ⟨(s.setReg x b).advance, hexec, result, rfl, s.setReg_advance_other x b, (s.setReg_onlyRegsAndPc x b).advance⟩

/-- An instruction that ends in the flag template: the flag reaches VF for every x, since it is written last, and the result
reaches Vx where that is another register. -/
theorem exec_writes_flag {ins : Instr} {s : State} {x : Reg} {b f : Byte} {result flag : Nat}
    (hexec : exec ins s = .next (s.writeWithFlag x b f).advance) (hb : b.toNat = result) (hf : f.toNat = flag) :
    ∃ t, exec ins s = .next t ∧ (x ≠ vF → (t.reg x).toNat = result) ∧ (t.reg vF).toNat = flag ∧ t.pc = s.pc + 2 ∧
      SameRegsExcept [x, vF] s t ∧ OnlyRegsAndPc s t := by
  refine ⟨(s.writeWithFlag x b f).advance, hexec, fun hx => ?_, ?_, rfl, s.writeWithFlag_advance_other x b f,
    ((s.setReg_onlyRegsAndPc x b).setReg vF f).advance⟩
  · simp [State.writeWithFlag_reg, hx, hb]
  · simp [State.writeWithFlag_reg, hf]

theorem exec_ldImm (x : Reg) (kk : Byte) (s : State) : exec (.ldImm x kk) s = .next (s.setReg x kk).advance := rfl
theorem exec_ldReg (x y : Reg) (s : State) : exec (.ldReg x y) s = .next (s.setReg x (s.reg y)).advance := rfl
theorem exec_addImm (x : Reg) (kk : Byte) (s : State) :
    exec (.addImm x kk) s = .next (s.setReg x (addBytes (s.reg x) kk)).advance := rfl
theorem exec_orReg (x y : Reg) (s : State) :
    exec (.orReg x y) s = .next (s.setReg x (s.reg x ||| s.reg y)).advance := rfl
theorem exec_andReg (x y : Reg) (s : State) :
    exec (.andReg x y) s = .next (s.setReg x (s.reg x &&& s.reg y)).advance := rfl
theorem exec_xorReg (x y : Reg) (s : State) :
    exec (.xorReg x y) s = .next (s.setReg x (s.reg x ^^^ s.reg y)).advance := rfl
theorem exec_addReg (x y : Reg) (s : State) : exec (.addReg x y) s =
    .next (s.writeWithFlag x (addBytes (s.reg x) (s.reg y)) (carryOut (s.reg x) (s.reg y))).advance := rfl
theorem exec_sub (x y : Reg) (s : State) : exec (.sub x y) s =
    .next (s.writeWithFlag x (subBytes (s.reg x) (s.reg y)) (notBorrow (s.reg x) (s.reg y))).advance := rfl
theorem exec_subn (x y : Reg) (s : State) : exec (.subn x y) s =
    .next (s.writeWithFlag x (subBytes (s.reg y) (s.reg x)) (notBorrow (s.reg y) (s.reg x))).advance := rfl

end Sys2Proof.Machine

namespace Sys2Proof.Proofs
open Sys2Proof.Machine

/-- Settles O31: ADD is the flag template with the sum and its carry. -/
theorem addSetsCarry : Obligations.AddSetsCarry := fun x y s =>
  exec_writes_flag (exec_addReg x y s) (addBytes_toNat (s.reg x) (s.reg y)) (carryOut_toNat (s.reg x) (s.reg y))

/-- Settles O32: SUB and SUBN are the flag template with one difference and its NOT borrow, the operands exchanged. -/
theorem subtractSetsNotBorrow : Obligations.SubtractSetsNotBorrow := fun x y s =>
  ⟨exec_writes_flag (exec_sub x y s) (subBytes_toNat (s.reg x) (s.reg y)) (notBorrow_toNat (s.reg x) (s.reg y)),
    exec_writes_flag (exec_subn x y s) (subBytes_toNat (s.reg y) (s.reg x)) (notBorrow_toNat (s.reg y) (s.reg x))⟩

/-- Settles O28: both loads commit their operand to Vx. -/
theorem loadByteAndCopyRegister : Obligations.LoadByteAndCopyRegister :=
  ⟨fun x kk s => exec_writes_result (· = kk) (exec_ldImm x kk s) rfl,
    fun x y s => exec_writes_result (· = s.reg y) (exec_ldReg x y s) rfl⟩

/-- Settles O29: ADD with a byte commits the wrapped sum to Vx and no flag. -/
theorem addByteKeepsFlag : Obligations.AddByteKeepsFlag := fun x kk s =>
  exec_writes_result (·.toNat = ((s.reg x).toNat + kk.toNat) % 256) (exec_addImm x kk s) (addBytes_toNat (s.reg x) kk)

/-- Settles O30: OR, AND and XOR commit the bitwise result to Vx, whose bits are the library's. -/
theorem logicKeepsFlag : Obligations.LogicKeepsFlag := fun x y s =>
  ⟨exec_writes_result (fun v => ∀ b, b < 8 → v.getLsbD b = ((s.reg x).getLsbD b || (s.reg y).getLsbD b))
      (exec_orReg x y s) (fun _ _ => BitVec.getLsbD_or),
    exec_writes_result (fun v => ∀ b, b < 8 → v.getLsbD b = ((s.reg x).getLsbD b && (s.reg y).getLsbD b))
      (exec_andReg x y s) (fun _ _ => BitVec.getLsbD_and),
    exec_writes_result (fun v => ∀ b, b < 8 → v.getLsbD b = Bool.xor ((s.reg x).getLsbD b) ((s.reg y).getLsbD b))
      (exec_xorReg x y s) (fun _ _ => BitVec.getLsbD_xor)⟩

end Sys2Proof.Proofs
end

section
/-!
PROOFS. What a write of I leaves unchanged, the commit of I that ends LD I, ADD I and LD F, the equations of the first two,
and O36 (43_index_memory.md R114, R115).
-/
namespace Sys2Proof.Machine

theorem State.setI_onlyIndexAndPc (s : State) (a : Word) : OnlyIndexAndPc s (s.setI a) :=
  have regs : SameRegsExcept [] s (s.setI a) := fun r _ => s.setI_reg a r
  have stack : SameStack s (s.setI a) := ⟨s.setI_sp a, s.setI_stack a⟩
  have timers : SameTimers s (s.setI a) := ⟨s.setI_dt a, s.setI_st a⟩
  have memory : SameMemory s (s.setI a) := fun b => congrArg (·.read b) (s.setI_mem a)
  have control : SameControl s (s.setI a) :=
    ⟨s.setI_key a, s.setI_params a, s.setI_draws a, s.setI_halt a, s.setI_wait a⟩
  ⟨regs, stack, timers, s.setI_fb a, memory, control⟩

/-- The advance is outside this frame: it writes PC alone. -/
theorem OnlyIndexAndPc.advance {s t : State} (h : OnlyIndexAndPc s t) : OnlyIndexAndPc s t.advance := h

/-- An instruction that commits `a` to I leaves I with the value of `a`, and writes nothing else but PC. -/
theorem exec_writes_index {ins : Instr} {s : State} {a : Word} {value : Nat}
    (hexec : exec ins s = .next (s.setI a).advance) (ha : a.toNat = value) :
    ∃ t, exec ins s = .next t ∧ t.i.toNat = value ∧ t.pc = s.pc + 2 ∧ OnlyIndexAndPc s t :=
  ⟨(s.setI a).advance, hexec, ha, rfl, (s.setI_onlyIndexAndPc a).advance⟩

theorem exec_ldI (nnn : Addr12) (s : State) : exec (.ldI nnn) s = .next (s.setI (addrOfNNN nnn)).advance := rfl
theorem exec_addI (x : Reg) (s : State) :
    exec (.addI x) s = .next (s.setI (wrapI s (s.i.toNat + (s.reg x).toNat))).advance := rfl

end Sys2Proof.Machine

namespace Sys2Proof.Proofs
open Sys2Proof.Machine

/-- Settles O36: LD I commits its operand to I, and ADD I the natural sum of I and Vx reduced modulo `I_WRAP`. -/
theorem indexLoadAndAdd : Obligations.IndexLoadAndAdd :=
  ⟨fun nnn s => exec_writes_index (exec_ldI nnn s) (addrOfNNN_toNat nnn),
    fun x s => exec_writes_index (exec_addI x s) (wrapI_toNat s (s.i.toNat + (s.reg x).toNat))⟩

end Sys2Proof.Proofs
end

section
/-!
PROOFS. What a write of the display leaves unchanged, CLS's equation, and O46 (45_display.md R125).
-/
namespace Sys2Proof.Machine

/-- A display write followed by the advance keeps everything but the display and PC. -/
theorem State.setFb_advance_frame (s : State) (f : Framebuffer) :
    SameRegsExcept [] s (s.setFb f).advance ∧ (s.setFb f).advance.i = s.i ∧ SameStack s (s.setFb f).advance ∧
      SameTimers s (s.setFb f).advance ∧ SameMemory s (s.setFb f).advance ∧ SameControl s (s.setFb f).advance :=
  have regs : SameRegsExcept [] s (s.setFb f) := fun r _ => s.setFb_reg f r
  have stack : SameStack s (s.setFb f) := ⟨s.setFb_sp f, s.setFb_stack f⟩
  have timers : SameTimers s (s.setFb f) := ⟨s.setFb_dt f, s.setFb_st f⟩
  have memory : SameMemory s (s.setFb f) := fun a => congrArg (·.read a) (s.setFb_mem f)
  have control : SameControl s (s.setFb f) :=
    ⟨s.setFb_key f, s.setFb_params f, s.setFb_draws f, s.setFb_halt f, s.setFb_wait f⟩
  ⟨regs, s.setFb_i f, stack, timers, memory, control⟩

theorem exec_cls (s : State) : exec .cls s = .next (s.setFb Framebuffer.clear).advance := rfl

end Sys2Proof.Machine

namespace Sys2Proof.Proofs
open Sys2Proof.Machine

/-- Settles O46: CLS writes the clear display, whose every pixel is clear, and a display write keeps all else but PC. -/
theorem clearScreenClearsAll : Obligations.ClearScreenClearsAll := fun s =>
  ⟨(s.setFb Framebuffer.clear).advance, exec_cls s, Framebuffer.clear_pixel, rfl,
    s.setFb_advance_frame Framebuffer.clear⟩

end Sys2Proof.Proofs
end

section
/-!
PROOFS. The key a register selects, the equations of SKP and SKNP, and O27 (46_input.md R126, R127).
-/
namespace Sys2Proof.Machine

/-- A key is selected by every byte whose low nibble is its number, whatever the high nibble. -/
theorem keyOf_eq_of_val {b : Byte} {k : Key} (hk : k.val = b.toNat % 16) : keyOf b = k :=
  Fin.ext ((keyOf_val b).trans hk.symm)

theorem exec_skp (x : Reg) (s : State) : exec (.skp x) s = .next (s.skip (s.isPressed (keyOf (s.reg x)))) := rfl
theorem exec_sknp (x : Reg) (s : State) : exec (.sknp x) s = .next (s.skip (!s.isPressed (keyOf (s.reg x)))) := rfl

theorem State.isPressed_eq_true_iff (s : State) (k : Key) : s.isPressed k = true ↔ s.key[k.val] = true := Iff.rfl
theorem State.not_isPressed_eq_true_iff (s : State) (k : Key) :
    (!s.isPressed k) = true ↔ s.key[k.val] = false := iff_of_eq (Bool.not_eq_true' (s.isPressed k))

end Sys2Proof.Machine

namespace Sys2Proof.Proofs
open Sys2Proof.Machine

/-- Settles O27: SKP and SKNP are skips whose tests read the entry of KEY that the low nibble of Vx selects, SKNP's negated. -/
theorem skipOnKey : Obligations.SkipOnKey := by
  intro x s k hk
  obtain rfl : keyOf (s.reg x) = k := keyOf_eq_of_val hk
  exact ⟨exec_skips_iff (exec_skp x s) (s.isPressed_eq_true_iff _),
    exec_skips_iff (exec_sknp x s) (s.not_isPressed_eq_true_iff _)⟩

end Sys2Proof.Proofs
end

section
/-!
PROOFS. A word put back together from its own fields, what each family decodes a word to, that decoding and encoding undo
each other, the rows a word matches, the numbers of an assembler line, and O1 to O6 (30_encoding.md R76 to R79, R88).
-/
namespace Sys2Proof

/-! ## A word is its pattern filled with its own fields -/

theorem wordNNN_fields {p : Nibble} {w : Word} (hop : fieldOp w = p.toNat) : wordNNN p (fieldNNN w) = w := by
  rw [fieldOp_eq] at hop
  apply BitVec.eq_of_toNat_eq
  rw [wordNNN_toNat, fieldNNN_toNat]
  omega

theorem wordXKK_fields {p : Nibble} {w : Word} (hop : fieldOp w = p.toNat) :
    wordXKK p (fieldX w) (fieldKK w) = w := by
  rw [fieldOp_eq] at hop
  apply BitVec.eq_of_toNat_eq
  rw [wordXKK_toNat, fieldX_val, fieldKK_toNat]
  omega

theorem wordXYN_fields {p : Nibble} {w : Word} (hop : fieldOp w = p.toNat) :
    wordXYN p (fieldX w) (fieldY w) (fieldN w) = w := by
  rw [fieldOp_eq] at hop
  apply BitVec.eq_of_toNat_eq
  rw [wordXYN_toNat, fieldX_val, fieldY_val, fieldN_toNat]
  omega

/-- The same where the row fixes `kk`. -/
theorem wordXKK_fixed {p : Nibble} {kk : Byte} {w : Word} (hop : fieldOp w = p.toNat)
    (hkk : (fieldKK w).toNat = kk.toNat) : wordXKK p (fieldX w) kk = w := by
  rw [← BitVec.eq_of_toNat_eq hkk, wordXKK_fields hop]

/-- The same where the row fixes `n`. -/
theorem wordXYN_fixed {p n : Nibble} {w : Word} (hop : fieldOp w = p.toNat) (hn : (fieldN w).toNat = n.toNat) :
    wordXYN p (fieldX w) (fieldY w) n = w := by
  rw [← BitVec.eq_of_toNat_eq hn, wordXYN_fields hop]

/-! ## Decoding an encoded instruction -/

theorem wordNNN_inj {p : Nibble} {a b : Addr12} : wordNNN p a = wordNNN p b ↔ a = b :=
  ⟨fun h => by simpa using congrArg fieldNNN h, congrArg _⟩

theorem decode_encode (i : Instr) (hwf : i.wf = true) : decode (encode i) = .instr i := by
  cases i with
  | cls => rfl
  | ret => rfl
  | sys nnn =>
    have notCls : wordNNN 0x0 nnn ≠ wordNNN 0x0 0x0E0 := by rw [Ne, wordNNN_inj]; rintro rfl; cases hwf
    have notRet : wordNNN 0x0 nnn ≠ wordNNN 0x0 0x0EE := by rw [Ne, wordNNN_inj]; rintro rfl; cases hwf
    have family : decode (wordNNN 0x0 nnn) = decodeFamily0 (wordNNN 0x0 nnn) := by simp [decode]
    calc decode (wordNNN 0x0 nnn) = .instr (.sys (fieldNNN (wordNNN 0x0 nnn))) :=
          family.trans ((if_neg notCls).trans (if_neg notRet))
      _ = .instr (.sys nnn) := by rw [fieldNNN_wordNNN]
  | _ => simp [encode, decode, decodeFamily5, decodeFamily8, decodeFamily9, decodeFamilyE, decodeFamilyF]

/-! ## What a word decodes to, family by family -/

/-- The words of the table of 30_encoding.md R79. -/
def Unassigned (w : Word) : Prop :=
  (fieldOp w = 0x5 ∧ (fieldN w).toNat ≠ 0) ∨
  (fieldOp w = 0x8 ∧ (fieldN w).toNat ∈ [0x8, 0x9, 0xA, 0xB, 0xC, 0xD, 0xF]) ∨
  (fieldOp w = 0x9 ∧ (fieldN w).toNat ≠ 0) ∨
  (fieldOp w = 0xE ∧ (fieldKK w).toNat ∉ [0x9E, 0xA1]) ∨
  (fieldOp w = 0xF ∧ (fieldKK w).toNat ∉ [0x07, 0x0A, 0x15, 0x18, 0x1E, 0x29, 0x33, 0x55, 0x65])

/-- What the decoder may answer for a word: a well-formed instruction with that word, or the unassigned word itself. -/
def Decoded.Sound (w : Word) : Decoded → Prop
  | .instr i => encode i = w ∧ i.wf = true
  | .unknown u => u = w ∧ Unassigned w

theorem decodeFamily0_sound {w : Word} (hop : fieldOp w = 0x0) : (decodeFamily0 w).Sound w := by
  unfold decodeFamily0
  split
  · next hcls => exact ⟨hcls.symm, rfl⟩
  · split
    · next hret => exact ⟨hret.symm, rfl⟩
    · next hcls hret =>
      have fill : wordNNN 0x0 (fieldNNN w) = w := wordNNN_fields hop
      have notCls : fieldNNN w ≠ 0x0E0#12 := fun hv => hcls (fill.symm.trans (congrArg _ hv))
      have notRet : fieldNNN w ≠ 0x0EE#12 := fun hv => hret (fill.symm.trans (congrArg _ hv))
      exact ⟨fill, by simp [Instr.wf, notCls, notRet]⟩

theorem decodeFamily5_sound {w : Word} (hop : fieldOp w = 0x5) : (decodeFamily5 w).Sound w := by
  unfold decodeFamily5
  split
  · next hn => exact ⟨wordXYN_fixed hop (congrArg BitVec.toNat hn), rfl⟩
  · next hn => exact ⟨rfl, .inl ⟨hop, fun h => hn (BitVec.eq_of_toNat_eq h)⟩⟩

theorem decodeFamily8_sound {w : Word} (hop : fieldOp w = 0x8) : (decodeFamily8 w).Sound w := by
  have := (fieldN w).isLt
  unfold decodeFamily8
  split
  case h_10 =>
    simp only [imp_false] at *
    exact ⟨rfl, .inr (.inl ⟨hop, by simp only [List.mem_cons, List.not_mem_nil]; omega⟩)⟩
  all_goals exact ⟨wordXYN_fixed hop ‹_›, rfl⟩

theorem decodeFamily9_sound {w : Word} (hop : fieldOp w = 0x9) : (decodeFamily9 w).Sound w := by
  unfold decodeFamily9
  split
  · next hn => exact ⟨wordXYN_fixed hop (congrArg BitVec.toNat hn), rfl⟩
  · next hn => exact ⟨rfl, .inr (.inr (.inl ⟨hop, fun h => hn (BitVec.eq_of_toNat_eq h)⟩))⟩

theorem decodeFamilyE_sound {w : Word} (hop : fieldOp w = 0xE) : (decodeFamilyE w).Sound w := by
  unfold decodeFamilyE
  split
  case h_3 _ notSkp notSknp => exact ⟨rfl, .inr (.inr (.inr (.inl ⟨hop, by simpa using ⟨notSkp, notSknp⟩⟩)))⟩
  all_goals exact ⟨wordXKK_fixed hop ‹_›, rfl⟩

theorem decodeFamilyF_sound {w : Word} (hop : fieldOp w = 0xF) : (decodeFamilyF w).Sound w := by
  unfold decodeFamilyF
  split
  case h_10 =>
    simp only [imp_false] at *
    exact ⟨rfl, .inr (.inr (.inr (.inr ⟨hop, by simp [*]⟩)))⟩
  all_goals exact ⟨wordXKK_fixed hop ‹_›, rfl⟩

theorem decode_sound (w : Word) : (decode w).Sound w := by
  have hlt : fieldOp w < 16 := (w.extractLsb' 12 4).isLt
  unfold decode
  split
  case h_1 hop => exact decodeFamily0_sound hop
  case h_6 hop => exact decodeFamily5_sound hop
  case h_9 hop => exact decodeFamily8_sound hop
  case h_10 hop => exact decodeFamily9_sound hop
  case h_15 hop => exact decodeFamilyE_sound hop
  case h_16 => exact decodeFamilyF_sound (by simp only [imp_false] at *; omega)
  case h_2 hop | h_3 hop | h_11 hop | h_12 hop => exact ⟨wordNNN_fields hop, rfl⟩
  case h_14 hop => exact ⟨wordXYN_fields hop, rfl⟩
  case h_4 hop | h_5 hop | h_7 hop | h_8 hop | h_13 hop => exact ⟨wordXKK_fields hop, rfl⟩

theorem sound_of_decode {w : Word} {d : Decoded} (h : decode w = d) : d.Sound w := h ▸ decode_sound w

theorem encode_not_unassigned (i : Instr) : ¬ Unassigned (encode i) := by
  cases i with
  | cls => simp [Unassigned, show fieldOp (encode .cls) = 0 from rfl]
  | ret => simp [Unassigned, show fieldOp (encode .ret) = 0 from rfl]
  | _ => simp [Unassigned, encode]

theorem decode_unknown_iff (w : Word) : decode w = .unknown w ↔ Unassigned w := by
  constructor
  · intro h
    obtain ⟨-, hun⟩ := sound_of_decode h
    exact hun
  · intro hun
    cases h : decode w with
    | instr i =>
      obtain ⟨rfl, -⟩ := sound_of_decode h
      exact absurd hun (encode_not_unassigned i)
    | unknown u =>
      obtain ⟨rfl, -⟩ := sound_of_decode h
      rfl

/-! ## Rows -/

open Laws in
theorem encode_mask : (i : Instr) → EncodingMask.Statement i
  | .sys nnn => EncodingMask.sys nnn
  | .cls => EncodingMask.cls
  | .ret => EncodingMask.ret
  | .jp nnn => EncodingMask.jp nnn
  | .call nnn => EncodingMask.call nnn
  | .seImm x kk => EncodingMask.seImm x kk
  | .sneImm x kk => EncodingMask.sneImm x kk
  | .seReg x y => EncodingMask.seReg x y
  | .ldImm x kk => EncodingMask.ldImm x kk
  | .addImm x kk => EncodingMask.addImm x kk
  | .ldReg x y => EncodingMask.ldReg x y
  | .orReg x y => EncodingMask.orReg x y
  | .andReg x y => EncodingMask.andReg x y
  | .xorReg x y => EncodingMask.xorReg x y
  | .addReg x y => EncodingMask.addReg x y
  | .sub x y => EncodingMask.sub x y
  | .shr x y => EncodingMask.shr x y
  | .subn x y => EncodingMask.subn x y
  | .shl x y => EncodingMask.shl x y
  | .sneReg x y => EncodingMask.sneReg x y
  | .ldI nnn => EncodingMask.ldI nnn
  | .jpV0 nnn => EncodingMask.jpV0 nnn
  | .rnd x kk => EncodingMask.rnd x kk
  | .drw x y n => EncodingMask.drw x y n
  | .skp x => EncodingMask.skp x
  | .sknp x => EncodingMask.sknp x
  | .ldVxDT x => EncodingMask.ldVxDT x
  | .ldVxK x => EncodingMask.ldVxK x
  | .ldDTVx x => EncodingMask.ldDTVx x
  | .ldSTVx x => EncodingMask.ldSTVx x
  | .addI x => EncodingMask.addI x
  | .ldF x => EncodingMask.ldF x
  | .ldB x => EncodingMask.ldB x
  | .ldMemVx x => EncodingMask.ldMemVx x
  | .ldVxMem x => EncodingMask.ldVxMem x

/-- The mask that all rows of an opcode family share, for every family but 0. -/
def familyMask : Nat → Word
  | 0x5 | 0x8 | 0x9 => 0xF00F#16
  | 0xE | 0xF => 0xF0FF#16
  | _ => 0xF000#16

theorem rowMask_eq_familyMask (i : Instr) (h : fieldOp (rowMatch i) ≠ 0) :
    rowMask i = familyMask (fieldOp (rowMatch i)) := by
  cases i with
  | sys | cls | ret => simp [rowMatch, fieldOp] at h
  | _ => simp [rowMask, rowMatch, familyMask, fieldOp]

/-- Every mask keeps the operation nibble, so a word is of its row's family. -/
theorem fieldOp_of_row {w : Word} {i : Instr} (h : w &&& rowMask i = rowMatch i) : fieldOp (rowMatch i) = fieldOp w := by
  have keeps : (rowMask i).extractLsb' 12 4 = BitVec.allOnes 4 := by cases i <;> simp [rowMask]
  rw [← h, fieldOp, fieldOp, BitVec.extractLsb'_and, keeps, BitVec.and_allOnes]

/-- Outside family 0 the family fixes the mask, and mask and word fix the match value. -/
theorem row_unique {w : Word} {i j : Instr} (hi : w &&& rowMask i = rowMatch i) (hj : w &&& rowMask j = rowMatch j)
    (hop : fieldOp w ≠ 0) : rowMask i = rowMask j ∧ rowMatch i = rowMatch j := by
  have maskOf : ∀ {k : Instr}, w &&& rowMask k = rowMatch k → rowMask k = familyMask (fieldOp w) := fun hk => by
    have op := fieldOp_of_row hk
    rw [rowMask_eq_familyMask _ (op ▸ hop), op]
  have masks : rowMask i = rowMask j := (maskOf hi).trans (maskOf hj).symm
  exact ⟨masks, by rw [← hi, ← hj, masks]⟩

/-! ## The numbers of a line -/

@[simp] theorem asmAddr_toNat (nnn : Addr12) : asmAddr nnn.toNat = some nnn := by
  simp [asmAddr, nnn.isLt]

@[simp] theorem asmByte_toNat (kk : Byte) : asmByte kk.toNat = some kk := by
  simp [asmByte, kk.isLt]

@[simp] theorem asmNibble_toNat (n : Nibble) : asmNibble n.toNat = some n := by
  simp [asmNibble, n.isLt]

theorem assemble_disassemble (i : Instr) (hwf : i.wf = true) : assemble (disassemble i) = some i := by
  cases i with
  | sys nnn => simp [disassemble, assemble, hwf]
  | _ => simp [disassemble, assemble, assembleLd]

end Sys2Proof

namespace Sys2Proof.Proofs
open Sys2Proof.Machine

/-- Settles O1: each of the closed words is decoded. -/
theorem sampleWordsDecode : Obligations.SampleWordsDecode := by
  unfold Obligations.SampleWordsDecode
  decide

/-- Settles O2: the fields of a pattern are its operands, so the decoder finds the row and fills it again. -/
theorem decodeOfEncode : Obligations.DecodeOfEncode := decode_encode

/-- Settles O3: every answer of the decoder is sound for its word. -/
theorem encodeOfDecode : Obligations.EncodeOfDecode :=
  ⟨fun _ _ h => sound_of_decode h, fun _ _ h => And.left (sound_of_decode h)⟩

/-- Settles O4: the unassigned words, their fields read as quotients and remainders. -/
theorem unknownWordsAreTheListed : Obligations.UnknownWordsAreTheListed := by
  intro w
  rw [decode_unknown_iff, Unassigned, fieldOp_eq, fieldN_toNat, fieldKK_toNat]

/-- Settles O5: a recognised word is the encoding of its instruction, and outside family 0 a word has one row. -/
theorem opcodeRowsDoNotOverlap : Obligations.OpcodeRowsDoNotOverlap := by
  refine ⟨fun w i h => ?_, fun w i j hi hj => ?_⟩
  · obtain ⟨rfl, -⟩ := sound_of_decode h
    exact encode_mask i
  · rw [← fieldOp_eq]
    exact or_iff_not_imp_right.mpr (row_unique hi hj)

/-- Settles O6: a field's number fits its field, so each line is read back by the arm it was written for. -/
theorem assemblyLinesSpellInstructions : Obligations.AssemblyLinesSpellInstructions :=
  ⟨assemble_disassemble, fun _ => ⟨rfl, rfl⟩⟩

end Sys2Proof.Proofs
end

section
/-!
PROOFS. What executing an instruction can do, said once: it raises its error and commits nothing, or it commits one state
(30_encoding.md R85, 60_exceptions.md R132, R133); which part of the state each commit writes; and O12, O13, O14, O34, O57
and O58.
-/
namespace Sys2Proof.Machine

/-! ## The equations of the instructions -/

/-- The state after a CALL with a free slot. -/
def State.called (s : State) (nnn : Addr12) : State :=
  { s with stack := s.stack.setIfInBounds s.sp.val (s.pc + 2), sp := s.sp + 1, pc := addrOfNNN nnn }

/-- The state after a RET with an occupied slot. -/
def State.returned (s : State) : State :=
  { s with pc := s.stack[s.sp.val - 1]'(by omega), sp := ⟨s.sp.val - 1, by omega⟩ }

/-- The state after LD Vx, K: the lowest key taken, or the wait begun with PC kept. -/
def State.keyLoaded (s : State) (x : Reg) : State :=
  { s with
    v := s.anyPressed.elim s.v fun k => s.v.set x.val (keyByte k)
    pc := s.anyPressed.elim s.pc fun _ => s.pc + 2
    wait := s.anyPressed.elim (some x) fun _ => s.wait }

theorem exec_sys (nnn : Addr12) (s : State) : exec (.sys nnn) s = .next s.advance := rfl

theorem exec_jpV0 (nnn : Addr12) (s : State) : exec (.jpV0 nnn) s = .next (s.setPc (jumpV0Target s nnn)) := rfl

/-- SP counts up while a slot is free. -/
theorem sp_succ_val {sp : Fin 17} (h : sp.val < 16) : (sp + 1).val = sp.val + 1 :=
  Fin.val_add_one_of_lt (Fin.lt_def.mpr h)

theorem exec_call_free (nnn : Addr12) (s : State) (h : s.sp.val < 16) : exec (.call nnn) s = .next (s.called nnn) := by
  have sp : (⟨s.sp.val + 1, by omega⟩ : Fin 17) = s.sp + 1 := Fin.ext (sp_succ_val h).symm
  have stack : s.stack.set s.sp.val (s.pc + 2) h = s.stack.setIfInBounds s.sp.val (s.pc + 2) :=
    Vector.ext fun k hk => by rw [Vector.getElem_set, Vector.getElem_setIfInBounds]
  simp only [exec, execCall, State.push_free s _ h, sp, stack]
  rfl

theorem exec_call_full (nnn : Addr12) (s : State) (h : s.sp.val = 16) :
    exec (.call nnn) s = .next (s.halted (.stackOverflow s.pc)) := by
  simp [exec, execCall, State.push_full s _ h, raise_eq]

theorem exec_ret_occupied (s : State) (h : 0 < s.sp.val) : exec .ret s = .next s.returned := by
  simp [exec, execRet, State.pop_occupied s h, State.returned, State.setPc]

theorem exec_ret_empty (s : State) (h : s.sp.val = 0) : exec .ret s = .next (s.halted (.stackUnderflow s.pc)) := by
  simp [exec, execRet, State.pop_empty s h, raise_eq]

theorem exec_shr (x y : Reg) (s : State) : exec (.shr x y) s =
    .next (s.writeWithFlag x (shiftedRight (shiftOperand s x y)) (lowBit (shiftOperand s x y))).advance := rfl

theorem exec_shl (x y : Reg) (s : State) : exec (.shl x y) s =
    .next (s.writeWithFlag x (shiftedLeft (shiftOperand s x y)) (highBit (shiftOperand s x y))).advance := rfl

theorem exec_rnd (x : Reg) (kk : Byte) (s : State) :
    exec (.rnd x kk) s = .next (s.setReg x (s.randomByte &&& kk)).countDraw.advance := rfl

theorem exec_ldVxDT (x : Reg) (s : State) : exec (.ldVxDT x) s = .next (s.setReg x s.dt).advance := rfl
theorem exec_ldDTVx (x : Reg) (s : State) : exec (.ldDTVx x) s = .next (s.setDt (s.reg x)).advance := rfl
theorem exec_ldSTVx (x : Reg) (s : State) : exec (.ldSTVx x) s = .next (s.setSt (s.reg x)).advance := rfl
theorem exec_ldF (x : Reg) (s : State) : exec (.ldF x) s = .next (s.setI (glyphAddr (s.reg x))).advance := rfl

theorem State.keyLoaded_pressed {s : State} (x : Reg) {k : Key} (h : s.anyPressed = some k) :
    s.keyLoaded x = (s.setReg x (keyByte k)).advance := by
  simp [State.keyLoaded, h, State.setReg, State.advance, State.setPc]

theorem State.keyLoaded_idle {s : State} (x : Reg) (h : s.anyPressed = none) : s.keyLoaded x = s.setWait (some x) := by
  simp [State.keyLoaded, h, State.setWait]

theorem exec_ldVxK (x : Reg) (s : State) : exec (.ldVxK x) s = .next (s.keyLoaded x) := by
  cases h : s.anyPressed with
  | none => simp [exec, execLdVxK, h, State.keyLoaded_idle x h]
  | some k => simp [exec, execLdVxK, h, State.keyLoaded_pressed x h]

/-! ## The error and the commit of an instruction -/

/-- The error an instruction raises, if any (60_exceptions.md R130, R131). -/
def State.errorOf (s : State) : Instr → Option CoreError
  | .ret => if s.sp.val = 0 then some (.stackUnderflow s.pc) else none
  | .call _ => if s.sp.val = 16 then some (.stackOverflow s.pc) else none
  | .drw _ _ n => regionCheck s.regionBase n.toNat
  | .ldB _ => regionCheck s.regionBase 3
  | .ldMemVx x => regionCheck s.regionBase (x.val + 1)
  | .ldVxMem x => regionCheck s.regionBase (x.val + 1)
  | _ => none

/-- The registers after LD Vx, [I], folded: comparing them with a state's own by unfolding is slow. -/
@[irreducible] def State.regsLoaded (s : State) (x : Reg) : Vector Byte 16 := s.loadedRegs x

theorem State.regsLoaded_eq (s : State) (x : Reg) : s.regsLoaded x = s.loadedRegs x := by
  rw [State.regsLoaded]

/-- The state an instruction commits where it raises no error. -/
def State.commitOf (s : State) : Instr → State
  | .sys _ => s.advance
  | .cls => (s.setFb Framebuffer.clear).advance
  | .ret => s.returned
  | .jp nnn => s.setPc (addrOfNNN nnn)
  | .call nnn => s.called nnn
  | .seImm x kk => s.skip (s.reg x == kk)
  | .sneImm x kk => s.skip (s.reg x != kk)
  | .seReg x y => s.skip (s.reg x == s.reg y)
  | .ldImm x kk => (s.setReg x kk).advance
  | .addImm x kk => (s.setReg x (addBytes (s.reg x) kk)).advance
  | .ldReg x y => (s.setReg x (s.reg y)).advance
  | .orReg x y => (s.setReg x (s.reg x ||| s.reg y)).advance
  | .andReg x y => (s.setReg x (s.reg x &&& s.reg y)).advance
  | .xorReg x y => (s.setReg x (s.reg x ^^^ s.reg y)).advance
  | .addReg x y => (s.writeWithFlag x (addBytes (s.reg x) (s.reg y)) (carryOut (s.reg x) (s.reg y))).advance
  | .sub x y => (s.writeWithFlag x (subBytes (s.reg x) (s.reg y)) (notBorrow (s.reg x) (s.reg y))).advance
  | .shr x y => (s.writeWithFlag x (shiftedRight (shiftOperand s x y)) (lowBit (shiftOperand s x y))).advance
  | .subn x y => (s.writeWithFlag x (subBytes (s.reg y) (s.reg x)) (notBorrow (s.reg y) (s.reg x))).advance
  | .shl x y => (s.writeWithFlag x (shiftedLeft (shiftOperand s x y)) (highBit (shiftOperand s x y))).advance
  | .sneReg x y => s.skip (s.reg x != s.reg y)
  | .ldI nnn => (s.setI (addrOfNNN nnn)).advance
  | .jpV0 nnn => s.setPc (jumpV0Target s nnn)
  | .rnd x kk => (s.setReg x (s.randomByte &&& kk)).countDraw.advance
  | .drw x y n => ((s.setFb (s.blit x y n).fb).setReg vF (flagByte (s.blit x y n).collision)).advance
  | .skp x => s.skip (s.isPressed (keyOf (s.reg x)))
  | .sknp x => s.skip (!s.isPressed (keyOf (s.reg x)))
  | .ldVxDT x => (s.setReg x s.dt).advance
  | .ldVxK x => s.keyLoaded x
  | .ldDTVx x => (s.setDt (s.reg x)).advance
  | .ldSTVx x => (s.setSt (s.reg x)).advance
  | .addI x => (s.setI (wrapI s (s.i.toNat + (s.reg x).toNat))).advance
  | .ldF x => (s.setI (glyphAddr (s.reg x))).advance
  | .ldB x => (s.setMem (s.mem.writeBytes s.regionBase (bcdDigits (s.reg x)))).advance
  | .ldMemVx x => ((s.setMem (s.mem.writeBytes s.regionBase (s.regsUpTo x))).setI (incrementedI s x)).advance
  | .ldVxMem x => ((s.setRegs (s.regsLoaded x)).setI (incrementedI s x)).advance

theorem withRegion_raises {s : State} {b k : Nat} {e : CoreError} (c : State) (h : regionCheck b k = some e) :
    withRegion s b k c = .next (s.halted e) := by
  simp [withRegion, h, raise_eq]

theorem withRegion_commits {s : State} {b k : Nat} (c : State) (h : regionCheck b k = none) :
    withRegion s b k c = .next c := by
  simp [withRegion, h]

theorem exec_raises {s : State} {i : Instr} {e : CoreError} (h : s.errorOf i = some e) :
    exec i s = .next (s.halted e) := by
  cases i with
  | ret =>
    obtain ⟨hsp, he⟩ := Option.ite_none_right_eq_some.mp h
    exact Option.some.inj he ▸ exec_ret_empty s hsp
  | call nnn =>
    obtain ⟨hsp, he⟩ := Option.ite_none_right_eq_some.mp h
    exact Option.some.inj he ▸ exec_call_full nnn s hsp
  | drw | ldB | ldMemVx | ldVxMem => exact withRegion_raises _ h
  | _ => cases h

theorem exec_commits {s : State} {i : Instr} (h : s.errorOf i = none) : exec i s = .next (s.commitOf i) := by
  cases i with
  | ret =>
    have hsp : s.sp.val ≠ 0 := by simpa [State.errorOf] using h
    exact exec_ret_occupied s (by omega)
  | call nnn =>
    have hsp : s.sp.val ≠ 16 := by simpa [State.errorOf] using h
    exact exec_call_free nnn s (by omega)
  | ldVxK x => exact exec_ldVxK x s
  | drw | ldB | ldMemVx => exact withRegion_commits _ h
  | ldVxMem x =>
    rw [State.commitOf, State.regsLoaded_eq]
    exact withRegion_commits _ h
  | _ => rfl

/-- An executed instruction raised its error or committed. -/
theorem exec_cases {s t : State} {i : Instr} (h : exec i s = .next t) :
    (∃ e, s.errorOf i = some e ∧ t = s.halted e) ∨ (s.errorOf i = none ∧ t = s.commitOf i) := by
  cases he : s.errorOf i with
  | some e =>
    rw [exec_raises he] at h
    exact .inl ⟨e, rfl, (Host.Outcome.next.inj h).symm⟩
  | none =>
    rw [exec_commits he] at h
    exact .inr ⟨rfl, (Host.Outcome.next.inj h).symm⟩

theorem exec_total (i : Instr) (s : State) : ∃ t, exec i s = .next t := by
  cases he : s.errorOf i with
  | some e => exact ⟨_, exec_raises he⟩
  | none => exact ⟨_, exec_commits he⟩

/-! ## What a commit writes -/

section
variable (s : State) (i : Instr)

@[simp] theorem State.commitOf_halt : (s.commitOf i).halt = s.halt := by cases i <;> rfl
@[simp] theorem State.commitOf_key : (s.commitOf i).key = s.key := by cases i <;> rfl
@[simp] theorem State.commitOf_params : (s.commitOf i).params = s.params := by cases i <;> rfl

end

section
variable {s : State} {i : Instr}

theorem State.commitOf_writes_i (h : (s.commitOf i).i ≠ s.i) :
    (∃ nnn, i = .ldI nnn) ∨ (∃ x, i = .addI x ∨ i = .ldF x) ∨
      (s.params.loadStoreIncrement = true ∧ ∃ x, i = .ldMemVx x ∨ i = .ldVxMem x) := by
  have increment : ∀ x, incrementedI s x ≠ s.i → s.params.loadStoreIncrement = true :=
    fun x hx => by_contra fun hoff => hx (if_neg hoff)
  cases i with
  | ldI nnn => exact .inl ⟨nnn, rfl⟩
  | addI x => exact .inr (.inl ⟨x, .inl rfl⟩)
  | ldF x => exact .inr (.inl ⟨x, .inr rfl⟩)
  | ldMemVx x => exact .inr (.inr ⟨increment x h, x, .inl rfl⟩)
  | ldVxMem x => exact .inr (.inr ⟨increment x h, x, .inr rfl⟩)
  | _ => exact absurd rfl h

theorem State.commitOf_writes_sp (h : (s.commitOf i).sp ≠ s.sp) : i = .ret ∨ ∃ nnn, i = .call nnn := by
  cases i with
  | ret => exact .inl rfl
  | call nnn => exact .inr ⟨nnn, rfl⟩
  | _ => exact absurd rfl h

theorem State.commitOf_writes_stack (h : (s.commitOf i).stack ≠ s.stack) : ∃ nnn, i = .call nnn := by
  cases i with
  | call nnn => exact ⟨nnn, rfl⟩
  | _ => exact absurd rfl h

theorem State.commitOf_writes_dt (h : (s.commitOf i).dt ≠ s.dt) : ∃ x, i = .ldDTVx x := by
  cases i with
  | ldDTVx x => exact ⟨x, rfl⟩
  | _ => exact absurd rfl h

theorem State.commitOf_writes_st (h : (s.commitOf i).st ≠ s.st) : ∃ x, i = .ldSTVx x := by
  cases i with
  | ldSTVx x => exact ⟨x, rfl⟩
  | _ => exact absurd rfl h

theorem State.commitOf_writes_fb (h : (s.commitOf i).fb ≠ s.fb) : i = .cls ∨ ∃ x y n, i = .drw x y n := by
  cases i with
  | cls => exact .inl rfl
  | drw x y n => exact .inr ⟨x, y, n, rfl⟩
  | _ => exact absurd rfl h

theorem State.commitOf_writes_mem (h : (s.commitOf i).mem ≠ s.mem) : ∃ x, i = .ldB x ∨ i = .ldMemVx x := by
  cases i with
  | ldB x => exact ⟨x, .inl rfl⟩
  | ldMemVx x => exact ⟨x, .inr rfl⟩
  | _ => exact absurd rfl h

theorem State.commitOf_writes_wait (h : (s.commitOf i).wait ≠ s.wait) : ∃ x, i = .ldVxK x := by
  cases i with
  | ldVxK x => exact ⟨x, rfl⟩
  | _ => exact absurd rfl h

theorem State.commitOf_writes_draws (h : (s.commitOf i).draws ≠ s.draws) : ∃ x kk, i = .rnd x kk := by
  cases i with
  | rnd x kk => exact ⟨x, kk, rfl⟩
  | _ => exact absurd rfl h

/-- LD Vx, [I] leaves V0..Vx as the bytes at I..I+x, and the other registers. -/
theorem State.loaded_reg (s : State) (x k : Reg) :
    ((s.setRegs (s.loadedRegs x)).setI (incrementedI s x)).advance.reg k =
      if k ≤ x then s.mem.read (s.i.toNat + k.val) else s.reg k := by
  rw [State.advance_reg, State.setI_reg, State.setRegs_reg, State.loadedRegs_getElem]
  rfl

/-- A register that a register write changes is the one it names. -/
theorem State.setReg_writes {x r : Reg} {b : Byte} (h : (s.setReg x b).reg r ≠ s.reg r) : (r == x) = true :=
  beq_iff_eq.mpr (not_imp_comm.mp (s.setReg_reg_other x b r) h)

/-- A register that the flag template changes is the result's or VF. -/
theorem State.writeWithFlag_writes {x r : Reg} {b f : Byte} (h : (s.writeWithFlag x b f).reg r ≠ s.reg r) :
    (r == x) = true ∨ r = vF := by
  rw [State.writeWithFlag_reg] at h
  by_cases hf : r = vF
  · exact .inr hf
  · rw [if_neg hf, ← State.setReg_reg] at h
    exact .inl (State.setReg_writes h)

theorem State.commitOf_writes_reg {r : Reg} (h : (s.commitOf i).reg r ≠ s.reg r) :
    writesResult r i = true ∨ (r = vF ∧ writesFlag i = true) := by
  cases i with
  | ldImm | addImm | ldReg | orReg | andReg | xorReg | rnd | ldVxDT => exact .inl (State.setReg_writes h)
  | addReg | sub | shr | subn | shl => exact (State.writeWithFlag_writes h).imp_right fun hf => ⟨hf, rfl⟩
  | drw x y n => exact .inr ⟨beq_iff_eq.mp (State.setReg_writes (s := s.setFb (s.blit x y n).fb) h), rfl⟩
  | ldVxK x =>
    cases hk : s.anyPressed with
    | none => exact absurd (congrArg (·.reg r) (State.keyLoaded_idle x hk)) h
    | some k =>
      refine .inl (State.setReg_writes (s := s) (b := keyByte k) ?_)
      rwa [State.commitOf, State.keyLoaded_pressed x hk, State.advance_reg] at h
  | ldVxMem x =>
    refine .inl (decide_eq_true (by_contra fun hr => h ?_))
    rw [State.commitOf, State.regsLoaded_eq, State.loaded_reg, if_neg hr]
  | _ => exact absurd rfl h

/-- What a flag writer commits to VF is a flag. -/
theorem State.commitOf_flag (h : writesFlag i = true) : ∃ f, (s.commitOf i).reg vF = flagByte f := by
  cases i with
  | addReg | sub | shr | subn | shl => exact ⟨_, (State.writeWithFlag_reg _ _ _ _ _).trans (if_pos rfl)⟩
  | drw x y n => exact ⟨_, State.setReg_reg_same _ _ _⟩
  | _ => cases h

end

/-! ## Which error, and whether it is fatal -/

theorem regionCheck_fatal {b k : Nat} {e : CoreError} (h : regionCheck b k = some e) : e.Fatal := by
  obtain ⟨-, -, rfl⟩ := MemoryLaws.regionCheck_eq_some h
  exact le_max_right b 0x1000

/-- Which instructions raise, and the error of each in terms of SP and I. -/
theorem State.errorOf_listed {s : State} {i : Instr} {e : CoreError} (h : s.errorOf i = some e) :
    (i = .ret ∧ s.sp = 0 ∧ e = .stackUnderflow s.pc) ∨
    ((∃ nnn, i = .call nnn) ∧ s.sp = 16 ∧ e = .stackOverflow s.pc) ∨
    (∃ k, ((∃ x y n, i = .drw x y n ∧ k = n.toNat) ∨ (∃ x, i = .ldB x ∧ k = 3) ∨
        (∃ x, (i = .ldMemVx x ∨ i = .ldVxMem x) ∧ k = x.val + 1)) ∧ regionCheck s.regionBase k = some e) := by
  cases i with
  | ret =>
    obtain ⟨hsp, he⟩ := Option.ite_none_right_eq_some.mp h
    exact .inl ⟨rfl, Fin.ext hsp, (Option.some.inj he).symm⟩
  | call nnn =>
    obtain ⟨hsp, he⟩ := Option.ite_none_right_eq_some.mp h
    exact .inr (.inl ⟨⟨nnn, rfl⟩, Fin.ext hsp, (Option.some.inj he).symm⟩)
  | drw x y n => exact .inr (.inr ⟨_, .inl ⟨x, y, n, rfl, rfl⟩, h⟩)
  | ldB x => exact .inr (.inr ⟨_, .inr (.inl ⟨x, rfl, rfl⟩), h⟩)
  | ldMemVx x => exact .inr (.inr ⟨_, .inr (.inr ⟨x, .inl rfl, rfl⟩), h⟩)
  | ldVxMem x => exact .inr (.inr ⟨_, .inr (.inr ⟨x, .inr rfl, rfl⟩), h⟩)
  | _ => cases h

theorem State.errorOf_fatal {s : State} {i : Instr} {e : CoreError} (h : s.errorOf i = some e) : e.Fatal := by
  rcases State.errorOf_listed h with ⟨-, -, rfl⟩ | ⟨-, -, rfl⟩ | ⟨k, -, hk⟩
  · trivial
  · trivial
  · exact regionCheck_fatal hk

/-! ## Steps -/

theorem fetch_fatal {s : State} {e : CoreError} (h : fetch s = .error e) : e.Fatal := by
  by_cases hp : s.pc.toNat ≤ 0xFFE
  · rw [fetch_inside s hp] at h
    cases h
  · rw [fetch_outside s (by omega)] at h
    exact Except.error.inj h ▸ le_max_right s.pc.toNat 0x1000

theorem pollKey_cases (x : Reg) (s : State) :
    pollKey x s = .next s ∨ ∃ k, pollKey x s = .next ((s.setReg x (keyByte k)).setWait none).advance := by
  cases hk : s.anyPressed with
  | none => exact .inl (pollKey_idle x s hk)
  | some k => exact .inr ⟨k, pollKey_pressed x s hk⟩

theorem unknownWord_cases (s : State) (w : Word) :
    unknownWord s w = .next (s.halted (.unknownOpcode w s.pc)) ∨ unknownWord s w = .next s.advance := by
  cases hm : s.params.unknownMode with
  | strict => exact .inl (unknownWord_strict s w hm)
  | lenient => exact .inr (unknownWord_lenient s w hm)

/-- What a step from `s` can lead to. -/
inductive State.Steps (s : State) : State → Prop
  | unchanged : s.Steps s
  | keyTaken (x : Reg) (k : Key) : s.wait = some x → s.Steps ((s.setReg x (keyByte k)).setWait none).advance
  | halts (e : CoreError) : s.wait = none → e.Fatal → s.Steps (s.halted e)
  | passesUnknown (w : Word) : s.wait = none → fetch s = .ok w → s.Steps s.advance
  | commits (w : Word) (i : Instr) : s.wait = none → s.halt = none → fetch s = .ok w → decode w = .instr i →
      s.errorOf i = none → s.Steps (s.commitOf i)

theorem step_steps (s : State) : ∃ t, step s = .next t ∧ s.Steps t := by
  rcases step_cases s with ⟨e, hh, hs⟩ | ⟨x, hh, hw, hs⟩ | ⟨e, hh, hw, hf, hs⟩ | ⟨w, u, hh, hw, hf, hd, hs⟩ |
    ⟨w, i, hh, hw, hf, hd, hs⟩
  · exact ⟨s, hs, .unchanged⟩
  · rcases pollKey_cases x s with hp | ⟨k, hp⟩
    · exact ⟨s, hs.trans hp, .unchanged⟩
    · exact ⟨_, hs.trans hp, .keyTaken x k hw⟩
  · exact ⟨_, hs, .halts e hw (fetch_fatal hf)⟩
  · rcases unknownWord_cases s u with hu | hu
    · exact ⟨_, hs.trans hu, .halts (.unknownOpcode u s.pc) hw trivial⟩
    · exact ⟨_, hs.trans hu, .passesUnknown w hw hf⟩
  · cases he : s.errorOf i with
    | some e => exact ⟨_, hs.trans (exec_raises he), .halts e hw (State.errorOf_fatal he)⟩
    | none => exact ⟨_, hs.trans (exec_commits he), .commits w i hw hh hf hd he⟩

theorem step_total (s : State) : ∃ t, step s = .next t :=
  (step_steps s).imp fun _ => And.left

theorem steps_of_step {s t : State} (h : step s = .next t) : s.Steps t := by
  obtain ⟨u, hu, hsteps⟩ := step_steps s
  obtain rfl : u = t := Host.Outcome.next.inj (hu.symm.trans h)
  exact hsteps

/-! ## The parameters -/

theorem wrapI_small {s : State} {n : Nat} (h : n ≤ 0xFFF) : wrapI s n = BitVec.ofNat 16 n := by
  unfold wrapI wrapModulus
  cases s.params.iWrap <;> rw [Nat.mod_eq_of_lt (by dsimp only; omega)]

theorem shiftOperand_same (s : State) (x : Reg) : shiftOperand s x x = s.reg x := by
  unfold shiftOperand
  split <;> rfl

/-- The instruction, where it is quirk-free, commits the same under other parameters. -/
theorem State.commitOf_quirkFree {s : State} {i : Instr} (p : Params) (h : QuirkFree s i) :
    ({ s with params := p } : State).commitOf i = { s.commitOf i with params := p } := by
  cases i with
  | shr x y =>
    obtain rfl : x = y := h
    simp only [State.commitOf, shiftOperand_same]
    rfl
  | shl x y =>
    obtain rfl : x = y := h
    simp only [State.commitOf, shiftOperand_same]
    rfl
  | addI x =>
    have wraps : ∀ t : State, wrapI t (s.i.toNat + (s.reg x).toNat) = BitVec.ofNat 16 (s.i.toNat + (s.reg x).toNat) :=
      fun t => wrapI_small h
    show (State.setI _ (wrapI _ (s.i.toNat + (s.reg x).toNat))).advance = _
    simp only [State.commitOf, wraps]
    rfl
  | ldMemVx | ldVxMem => exact h.elim
  | _ => rfl

theorem State.errorOf_params (s : State) (i : Instr) (p : Params) :
    ({ s with params := p } : State).errorOf i = s.errorOf i := by
  cases i <;> rfl

end Sys2Proof.Machine

namespace Sys2Proof.Proofs
open Sys2Proof.Machine

/-- Settles O12: an instruction raises or commits, and a step is one of five next states. -/
theorem everyInstructionSteps : Obligations.EveryInstructionSteps := ⟨exec_total, step_total⟩

/-- Settles O13: of what an instruction or a step can do only the halt writes HALT, and it writes nothing else. -/
theorem raisedErrorCommitsNothing : Obligations.RaisedErrorCommitsNothing := by
  refine ⟨fun i s t h hne => ?_, fun s t h hne => ?_⟩
  · rcases exec_cases h with ⟨e, -, rfl⟩ | ⟨-, rfl⟩
    · rfl
    · exact absurd (s.commitOf_halt i) hne
  · cases steps_of_step h with
    | unchanged | keyTaken | passesUnknown => exact absurd rfl hne
    | halts => rfl
    | commits w i => exact absurd (s.commitOf_halt i) hne

/-- Settles O14: from no halt only a raised error halts, and the region check names its address. -/
theorem onlyListedInstructionsRaise : Obligations.OnlyListedInstructionsRaise := by
  intro i s t e hh h ht
  rcases exec_cases h with ⟨e', he', rfl⟩ | ⟨-, rfl⟩
  · obtain rfl : e' = e := Option.some.inj ht
    refine (State.errorOf_listed he').imp_right (Or.imp_right fun ⟨k, hi, hk⟩ => ?_)
    obtain ⟨hpos, hout, rfl⟩ := MemoryLaws.regionCheck_eq_some hk
    exact ⟨k, hi, hpos, by unfold memSize State.regionBase at hout; omega, rfl⟩
  · rw [State.commitOf_halt, hh] at ht
    cases ht

/-- Settles O34: a commit changes VF only as a result or by its flag, which is a bit; a raised error leaves VF and halts. -/
theorem onlyFlagWritersTouchVf : Obligations.OnlyFlagWritersTouchVf := by
  intro i s t hh h
  rcases exec_cases h with ⟨e, -, rfl⟩ | ⟨-, rfl⟩
  · exact ⟨fun _ _ => rfl, fun _ ht => by cases ht⟩
  · refine ⟨fun hflag hresult => ?_, fun hflag _ => ?_⟩
    · by_contra hne
      simpa [hflag, hresult] using State.commitOf_writes_reg hne
    · obtain ⟨f, hf⟩ := State.commitOf_flag (s := s) hflag
      exact hf ▸ flagByte_bit f

/-- Settles O57: a halt writes none of these, and a commit each only by the instructions named. -/
theorem onlyNamedInstructionsWrite : Obligations.OnlyNamedInstructionsWrite := by
  intro i s t h
  rcases exec_cases h with ⟨e, -, rfl⟩ | ⟨-, rfl⟩
  · simp
  · exact ⟨State.commitOf_writes_i, State.commitOf_writes_sp, State.commitOf_writes_stack, State.commitOf_writes_dt,
      State.commitOf_writes_st, State.commitOf_writes_fb,
      fun ⟨a, ha⟩ => State.commitOf_writes_mem fun hm => ha (congrArg (·.read a) hm), State.commitOf_writes_wait,
      State.commitOf_writes_draws, fun _ => State.commitOf_writes_reg, s.commitOf_key i, s.commitOf_params i⟩

/-- Settles O58: neither the error nor, where no quirk is reached, the commit reads the parameters. -/
theorem quirkFreeIgnoresParameters : Obligations.QuirkFreeIgnoresParameters := by
  intro i s p hq
  cases he : s.errorOf i with
  | some e => exact ⟨s.halted e, exec_raises he, exec_raises ((s.errorOf_params i p).trans he)⟩
  | none =>
    refine ⟨s.commitOf i, exec_commits he, ?_⟩
    rw [exec_commits ((s.errorOf_params i p).trans he), State.commitOf_quirkFree p hq]

end Sys2Proof.Proofs
end

section
/-!
PROOFS. The step in each of its cases, the reply of the step port, and O7 to O11, O50 and O60 (30_encoding.md R81 to R84,
46_input.md R128, R129, 70_reset_and_hazards.md R173).
-/
namespace Sys2Proof.Machine

section
variable {s : State}

theorem step_of_halted {e : CoreError} (hh : s.halt = some e) : step s = .next s := by
  simp [step, hh]

theorem step_of_waiting {x : Reg} (hh : s.halt = none) (hw : s.wait = some x) : step s = pollKey x s := by
  simp [step, hh, hw]

theorem step_of_fetch_error {e : CoreError} (hh : s.halt = none) (hw : s.wait = none) (hf : fetch s = .error e) :
    step s = .next (s.halted e) := by
  simp [step, hh, hw, runFetched, hf, raise_eq]

theorem step_of_instr {w : Word} {i : Instr} (hh : s.halt = none) (hw : s.wait = none) (hf : fetch s = .ok w)
    (hd : decode w = .instr i) : step s = exec i s := by
  simp [step, hh, hw, runFetched, hf, hd, runDecoded]

theorem step_of_unknown {w u : Word} (hh : s.halt = none) (hw : s.wait = none) (hf : fetch s = .ok w)
    (hd : decode w = .unknown u) : step s = unknownWord s u := by
  simp [step, hh, hw, runFetched, hf, hd, runDecoded]

theorem stepLog_of_unknown {w u : Word} (hh : s.halt = none) (hw : s.wait = none) (hf : fetch s = .ok w)
    (hd : decode w = .unknown u) (hm : s.params.unknownMode = .lenient) :
    s.stepLog = some { word := u, pc := s.pc } := by
  simp [State.stepLog, hh, hw, hf, hd, hm]

/-- No key pressed, as the statements say it. -/
theorem anyPressed_of_none (h : ∀ k : Key, s.key[k.val] = false) : s.anyPressed = none := State.anyPressed_none.mpr h

/-- The lowest pressed key, as the statements say it. -/
theorem anyPressed_of_lowest {k : Key} (hk : s.key[k.val] = true) (hlow : ∀ j : Key, j < k → s.key[j.val] = false) :
    s.anyPressed = some k := State.anyPressed_some.mpr ⟨hk, hlow⟩

end

/-- The step port in a core whose step leads to a halt. -/
theorem event_step_err {c : System} {t : State} {e : CoreError} (h : step c.core = .next t) (ht : t.halt = some e) :
    c.event .step = .next ({ core := t, phase := .running }, .stepErr e) := by
  simp [System.event, System.step, h, stepReply, ht]

/-- The step port in a core whose step leads to no halt. -/
theorem event_step_ok {c : System} {t : State} (h : step c.core = .next t) (ht : t.halt = none) :
    c.event .step = .next ({ core := t, phase := .running }, .stepOk c.core.stepLog) := by
  simp [System.event, System.step, h, stepReply, ht]

end Sys2Proof.Machine

namespace Sys2Proof.Proofs
open Sys2Proof.Machine

/-- Settles O7: the fetch answers the word of the two bytes at PC. -/
theorem stepRunsDecodedInstruction : Obligations.StepRunsDecodedInstruction := fun s _ hh hw hp hd =>
  step_of_instr hh hw (fetch_inside s hp) hd

/-- Settles O8: the step changes nothing, so HALT still holds the error the port answers. -/
theorem haltedStepRepeatsError : Obligations.HaltedStepRepeatsError := fun _ _ hh =>
  event_step_err (step_of_halted hh) hh

/-- Settles O9: the fetch raises, and the halt holds its error. -/
theorem fetchOutOfRangeHalts : Obligations.FetchOutOfRangeHalts := fun c hh hw hp =>
  event_step_err (step_of_fetch_error hh hw (fetch_outside c.core hp)) rfl

/-- Settles O10: the fetch answers the unknown word, and the mode says what becomes of it. -/
theorem unknownWordFollowsMode : Obligations.UnknownWordFollowsMode := by
  rintro c w hh hw hp rfl hd
  have hf := fetch_inside c.core hp
  have hs := step_of_unknown hh hw hf hd
  refine ⟨fun hm => ?_, fun hm => ?_⟩
  · exact event_step_err (hs.trans (unknownWord_strict c.core _ hm)) rfl
  · rw [event_step_ok (hs.trans (unknownWord_lenient c.core _ hm)) hh, stepLog_of_unknown hh hw hf hd hm]
    rfl

/-- Settles O11: the step polls, and the poll reads the latch through the lowest pressed key. -/
theorem pollTakesLowestKey : Obligations.PollTakesLowestKey := by
  intro s x hh hw
  have hs := step_of_waiting hh hw
  refine ⟨fun k hk hlow => ?_, fun hnone => hs.trans (pollKey_idle x s (anyPressed_of_none hnone))⟩
  obtain ⟨hi, hstack, htimers, hfb, hmem, hkey, hparams, hdraws, hhalt, -⟩ := s.setReg_onlyRegsAndPc x (keyByte k)
  exact ⟨_, hs.trans (pollKey_pressed x s (anyPressed_of_lowest hk hlow)),
    (congrArg BitVec.toNat (s.setReg_reg_same x (keyByte k))).trans (keyByte_toNat k), rfl, rfl,
    s.setReg_advance_other x (keyByte k), hi, hstack, htimers, hfb, hmem, hkey, hparams, hdraws, hhalt.trans hh⟩

/-- Settles O50: with a key LD Vx, K commits its number to Vx, and with none it only begins the wait. -/
theorem keyLoadTakesOrWaits : Obligations.KeyLoadTakesOrWaits := by
  intro x s
  refine ⟨fun k hk hlow => ?_, fun hnone => ?_⟩
  · have hexec := (exec_ldVxK x s).trans (congrArg _ (State.keyLoaded_pressed x (anyPressed_of_lowest hk hlow)))
    exact exec_writes_result (·.toNat = k.val) hexec (keyByte_toNat k)
  · exact (exec_ldVxK x s).trans (congrArg _ (State.keyLoaded_idle x (anyPressed_of_none hnone)))

/-- Settles O60: a halted core stays, a jump to PC sets PC to itself, and a poll with no key pressed changes nothing. -/
theorem endStatesAreFixed : Obligations.EndStatesAreFixed := by
  rintro s (hfaulted | ⟨hh, hw, nnn, hf, hpc⟩ | ⟨hh, ⟨x, hw⟩, hnone⟩)
  · obtain ⟨e, hh⟩ := Option.isSome_iff_exists.mp hfaulted
    exact step_of_halted hh
  · rw [step_of_instr hh hw hf (decode_encode (.jp nnn) rfl), exec_jp, ← hpc]
    rfl
  · rw [step_of_waiting hh hw, pollKey_idle x s hnone]

end Sys2Proof.Proofs
end

section
/-!
PROOFS. That the invariant holds at reset and is kept by every step and every event, what a halted core keeps, and O54, O55,
O56 and O59 (10_state.md R24, 30_encoding.md R86, 60_exceptions.md R134, R136).
-/
namespace Sys2Proof.Machine

/-! ## Reset -/

/-- The invariant at reset, whatever the model's own two fields hold. -/
theorem State.reset_inv (p : Params) (n : Nat) : ({ State.reset with params := p, draws := n } : State).Inv where
  memWf := MemoryLaws.reset_wf
  pcBound := show (0x200 : Word).toNat ≤ 0x10FE by decide
  stackBound := fun k h => by simp [State.reset]
  indexBound := fun _ => Nat.zero_le 0xFFF
  haltFatal := fun _ he => by cases he
  waitAtKeyLoad := fun _ hx => by cases hx

theorem State.resetEvent_inv (s : State) : s.resetEvent.Inv := State.reset_inv s.params s.draws

/-! ## The parts of the invariant after a commit -/

section
variable {s : State}

/-- A PC that two bytes fit behind stays in bounds when it passes them, and when it skips two more. -/
theorem advance_bound (h : s.pc.toNat ≤ 0xFFE) : (s.pc + 2).toNat ≤ 0x1000 ∧ (s.pc + 4).toNat ≤ 0x1002 := by
  constructor <;> bv_omega

theorem State.commitOf_memWf {i : Instr} (hm : s.mem.wf = true) (he : s.errorOf i = none) :
    (s.commitOf i).mem.wf = true := by
  cases i with
  | ldB x =>
    have hr := MemoryLaws.regionCheck_none.mp he
    exact MemoryLaws.writeBytes_wf hm _ (by rw [bcdDigits_length]; omega)
  | ldMemVx x =>
    have hr := MemoryLaws.regionCheck_none.mp he
    exact MemoryLaws.writeBytes_wf hm _ (by rw [State.regsUpTo_length]; omega)
  | _ => exact hm

theorem State.commitOf_pcBound (i : Instr) (hstack : ∀ k (h : k < 16), (s.stack[k]'h).toNat ≤ 0x1000)
    (hp : s.pc.toNat ≤ 0xFFE) : (s.commitOf i).pc.toNat ≤ 0x10FE := by
  obtain ⟨h2, h4⟩ := advance_bound hp
  have skips : ∀ taken, (s.skip taken).pc.toNat ≤ 0x10FE := fun taken => by
    rw [State.skip_pc]
    split <;> omega
  have addr : ∀ nnn, (addrOfNNN nnn).toNat ≤ 0x10FE := fun nnn => by
    have := nnn.isLt
    rw [addrOfNNN_toNat]
    omega
  cases i with
  | jp nnn | call nnn => exact addr nnn
  | jpV0 nnn =>
    have := nnn.isLt
    have := (s.reg 0).isLt
    rw [State.commitOf, State.setPc_pc, jumpV0Target_toNat]
    omega
  | ret => exact (hstack (s.sp.val - 1) (by omega)).trans (by decide)
  | seImm | sneImm | seReg | sneReg | skp | sknp => exact skips _
  | ldVxK x =>
    cases hk : s.anyPressed with
    | none => rw [State.commitOf, State.keyLoaded_idle x hk, State.setWait_pc]; omega
    | some k => rw [State.commitOf, State.keyLoaded_pressed x hk, State.advance_pc, State.setReg_pc]; omega
  | _ => exact h2.trans (by decide)

theorem State.commitOf_stackBound (i : Instr) (hstack : ∀ k (h : k < 16), (s.stack[k]'h).toNat ≤ 0x1000)
    (hp : s.pc.toNat ≤ 0xFFE) : ∀ k (h : k < 16), ((s.commitOf i).stack[k]'h).toNat ≤ 0x1000 := by
  cases i with
  | call nnn =>
    intro k h
    simp only [State.commitOf, State.called, Vector.getElem_setIfInBounds]
    split
    · exact (advance_bound hp).1
    · exact hstack k h
  | _ => exact hstack

theorem State.commitOf_indexBound (i : Instr) (hi : s.params.iWrap = .at4096 → s.i.toNat ≤ 0xFFF)
    (h4096 : s.params.iWrap = .at4096) : (s.commitOf i).i.toNat ≤ 0xFFF := by
  have increment : ∀ x, (incrementedI s x).toNat ≤ 0xFFF := fun x => by
    have := hi h4096
    rw [incrementedI_toNat, if_pos h4096]
    split <;> omega
  cases i with
  | ldI nnn =>
    have := nnn.isLt
    rw [State.commitOf, State.advance_i, State.setI_i, addrOfNNN_toNat]
    omega
  | addI x =>
    rw [State.commitOf, State.advance_i, State.setI_i, wrapI_toNat, if_pos h4096]
    omega
  | ldF x =>
    rw [State.commitOf, State.advance_i, State.setI_i, glyphAddr_toNat, fontBase]
    omega
  | ldMemVx x | ldVxMem x => exact increment x
  | _ => exact hi h4096

/-- A wait that a commit leaves, where none was pending, is the one LD Vx, K begins, with PC and the memory as they were. -/
theorem State.commitOf_wait {i : Instr} {x : Reg} (hw : s.wait = none) (h : (s.commitOf i).wait = some x) :
    i = .ldVxK x ∧ fetch (s.commitOf i) = fetch s := by
  obtain ⟨y, rfl⟩ := State.commitOf_writes_wait (s := s) (i := i) (by rw [h, hw]; simp)
  cases hk : s.anyPressed with
  | some k =>
    rw [State.commitOf, State.keyLoaded_pressed y hk, State.advance_wait, State.setReg_wait, hw] at h
    cases h
  | none =>
    rw [State.commitOf, State.keyLoaded_idle y hk] at h ⊢
    obtain rfl : y = x := Option.some.inj h
    exact ⟨rfl, rfl⟩

/-! ## Steps -/

theorem State.Inv.halted (h : s.Inv) {e : CoreError} (hw : s.wait = none) (he : e.Fatal) : (s.halted e).Inv where
  memWf := h.memWf
  pcBound := h.pcBound
  stackBound := h.stackBound
  indexBound := h.indexBound
  haltFatal := fun _ he' => Option.some.inj he' ▸ he
  waitAtKeyLoad := fun _ hx => by
    rw [State.halted_wait, hw] at hx
    cases hx

/-- Passing the word at PC, with no wait left. -/
theorem State.Inv.advance (h : s.Inv) (hp : s.pc.toNat ≤ 0xFFE) (hw : s.wait = none) : s.advance.Inv where
  memWf := h.memWf
  pcBound := (advance_bound hp).1.trans (by decide)
  stackBound := h.stackBound
  indexBound := h.indexBound
  haltFatal := h.haltFatal
  waitAtKeyLoad := fun _ hx => by
    rw [State.advance_wait, hw] at hx
    cases hx

/-- Storing the key and ending the wait. -/
theorem State.Inv.takeKey (h : s.Inv) (x : Reg) (b : Byte) : ((s.setReg x b).setWait none).Inv where
  memWf := h.memWf
  pcBound := h.pcBound
  stackBound := h.stackBound
  indexBound := h.indexBound
  haltFatal := h.haltFatal
  waitAtKeyLoad := fun _ hx => by cases hx

theorem State.Inv.commitOf (h : s.Inv) {w : Word} {i : Instr} (hw : s.wait = none) (hh : s.halt = none)
    (hf : fetch s = .ok w) (hd : decode w = .instr i) (he : s.errorOf i = none) : (s.commitOf i).Inv where
  memWf := State.commitOf_memWf h.memWf he
  pcBound := State.commitOf_pcBound i h.stackBound (fetch_ok_pc hf).1
  stackBound := State.commitOf_stackBound i h.stackBound (fetch_ok_pc hf).1
  indexBound := fun h4096 => State.commitOf_indexBound i h.indexBound (s.commitOf_params i ▸ h4096)
  haltFatal := fun _ he' => by
    rw [State.commitOf_halt, hh] at he'
    cases he'
  waitAtKeyLoad := fun x hx => by
    obtain ⟨rfl, hfetch⟩ := State.commitOf_wait hw hx
    obtain ⟨rfl, -⟩ := sound_of_decode hd
    exact ⟨(s.commitOf_halt _).trans hh, hfetch.trans hf⟩

theorem State.Inv.step {t : State} (h : s.Inv) (hstep : step s = .next t) : t.Inv := by
  cases steps_of_step hstep with
  | unchanged => exact h
  | keyTaken x k hw =>
    obtain ⟨-, hf⟩ := h.waitAtKeyLoad x hw
    exact (h.takeKey x (keyByte k)).advance (fetch_ok_pc hf).1 rfl
  | halts e hw he => exact h.halted hw he
  | passesUnknown w hw hf => exact h.advance (fetch_ok_pc hf).1 hw
  | commits w i hw hh hf hd he => exact h.commitOf hw hh hf hd he

/-! ## Events -/

theorem State.Inv.tick (h : s.Inv) : s.tick.Inv :=
  ⟨h.memWf, h.pcBound, h.stackBound, h.indexBound, h.haltFatal, h.waitAtKeyLoad⟩

theorem State.Inv.setKey (h : s.Inv) (k : Key) (pressed : Bool) : (s.setKey k pressed).Inv :=
  ⟨h.memWf, h.pcBound, h.stackBound, h.indexBound, h.haltFatal, h.waitAtKeyLoad⟩

theorem State.Inv.configure (h : s.Inv) (p : Params) (hi : s.i = 0) : ({ s with params := p } : State).Inv :=
  ⟨h.memWf, h.pcBound, h.stackBound, fun _ => hi ▸ Nat.zero_le _, h.haltFatal, h.waitAtKeyLoad⟩

theorem State.Inv.loadRom (h : s.Inv) {bytes : List Byte} (hlen : bytes.length ≤ maxRomSize) (hw : s.wait = none) :
    (s.loadRom bytes).Inv where
  memWf := MemoryLaws.writeBytes_wf h.memWf bytes (by unfold maxRomSize at hlen; unfold programBase memSize; omega)
  pcBound := h.pcBound
  stackBound := h.stackBound
  indexBound := h.indexBound
  haltFatal := h.haltFatal
  waitAtKeyLoad := fun _ hx => by
    rw [State.loadRom, State.setMem_wait, hw] at hx
    cases hx

end

/-- What an event that is answered leaves. -/
inductive System.Leads (c : System) : Event → System → Prop
  | configured (p : Params) : c.phase ≠ .running → c.Leads (.configure p) { c with core := { c.core with params := p } }
  | reset : c.Leads .reset { core := c.core.resetEvent, phase := .fresh }
  | rejected (bytes : List Byte) : c.phase = .fresh → c.Leads (.loadRom bytes) c
  | loaded (bytes : List Byte) : c.phase = .fresh → bytes.length ≤ maxRomSize →
      c.Leads (.loadRom bytes) { core := c.core.loadRom bytes, phase := .loaded }
  | stepped (t : State) : Machine.step c.core = .next t → c.Leads .step { core := t, phase := .running }
  | ticked : c.Leads .tick { c with core := c.core.tick }
  | keySet (k : Key) (pressed : Bool) :
      c.Leads (.setKey k.val pressed) { c with core := c.core.setKey k pressed }
  | readFramebuffer : c.Leads .getFramebuffer c
  | readSoundTimer : c.Leads .getSoundTimer c
  | readDelayTimer : c.Leads .getDelayTimer c

theorem System.configure_leads {c d : System} {p : Params} {r : Reply} (h : c.configure p = .next (d, r)) :
    c.Leads (.configure p) d := by
  unfold System.configure at h
  split at h
  · cases h
  · next hp => cases h; exact .configured p (by simp [hp])
  · next hp => cases h; exact .configured p (by simp [hp])

theorem System.load_leads {c d : System} {bytes : List Byte} {r : Reply} (h : c.load bytes = .next (d, r)) :
    c.Leads (.loadRom bytes) d := by
  unfold System.load at h
  split at h
  · next hp =>
    split at h
    · cases h; exact .rejected bytes hp
    · next hlen => cases h; exact .loaded bytes hp (Nat.le_of_not_lt hlen)
  · cases h
  · cases h

theorem System.step_leads {c d : System} {r : Reply} (h : c.step = .next (d, r)) : c.Leads .step d := by
  unfold System.step at h
  split at h
  · next t ht => cases h; exact .stepped t ht
  · cases h
  · cases h

theorem System.setKey_leads {c d : System} {index : Nat} {pressed : Bool} {r : Reply}
    (h : c.setKey index pressed = .next (d, r)) : c.Leads (.setKey index pressed) d := by
  unfold System.setKey at h
  split at h
  · next hi => cases h; exact .keySet ⟨index, hi⟩ pressed
  · cases h

theorem System.event_leads {c d : System} {e : Event} {r : Reply} (h : c.event e = .next (d, r)) : c.Leads e d := by
  cases e with
  | configure p => exact System.configure_leads h
  | loadRom bytes => exact System.load_leads h
  | step => exact System.step_leads h
  | setKey index pressed => exact System.setKey_leads h
  | reset => cases h; exact .reset
  | tick => cases h; exact .ticked
  | getFramebuffer => cases h; exact .readFramebuffer
  | getSoundTimer => cases h; exact .readSoundTimer
  | getDelayTimer => cases h; exact .readDelayTimer

theorem System.Inv.event {c d : System} {e : Event} (h : c.Inv) (hd : c.Leads e d) : d.Inv := by
  cases hd with
  | configured p hp => exact ⟨h.coreInv.configure p (h.beforeStep hp).1, h.beforeStep⟩
  | reset => exact ⟨c.core.resetEvent_inv, fun _ => ⟨rfl, rfl, rfl, rfl⟩⟩
  | rejected | readFramebuffer | readSoundTimer | readDelayTimer => exact h
  | loaded bytes hp hlen =>
    obtain ⟨hi, hpc, hh, hw⟩ := h.beforeStep (by simp [hp])
    exact ⟨h.coreInv.loadRom hlen hw, fun _ => ⟨hi, hpc, hh, hw⟩⟩
  | stepped t ht => exact ⟨h.coreInv.step ht, fun hp => absurd rfl hp⟩
  | ticked => exact ⟨h.coreInv.tick, h.beforeStep⟩
  | keySet k pressed => exact ⟨h.coreInv.setKey k pressed, h.beforeStep⟩

/-! ## What a halted core keeps -/

/-- The state but for what the host changes in every core state: the timers and the latch. -/
def State.withoutHostParts (s : State) : State := { s with dt := 0, st := 0, key := State.reset.key }

/-- A running system halted with `e` and with these parts. -/
def System.HaltedAt (e : CoreError) (parts : State) (c : System) : Prop :=
  c.phase = .running ∧ c.core.halt = some e ∧ c.core.withoutHostParts = parts

theorem System.HaltedAt.event {e : CoreError} {parts : State} {c d : System} {ev : Event} (h : c.HaltedAt e parts)
    (hreset : ev ≠ .reset) (hd : c.Leads ev d) : d.HaltedAt e parts := by
  obtain ⟨hp, hh, hparts⟩ := h
  cases hd with
  | configured p hp' => exact absurd hp hp'
  | reset => exact absurd rfl hreset
  | rejected bytes hp' => rw [hp] at hp'; cases hp'
  | loaded bytes hp' => rw [hp] at hp'; cases hp'
  | stepped t ht =>
    rw [step_of_halted hh] at ht
    cases ht
    exact ⟨rfl, hh, hparts⟩
  | ticked | keySet | readFramebuffer | readSoundTimer | readDelayTimer => exact ⟨hp, hh, hparts⟩

theorem System.run_cons {c d : System} {ev : Event} {events : List Event} (h : c.run (ev :: events) = .next d) :
    ∃ b, c.Leads ev b ∧ b.run events = .next d := by
  unfold System.run at h
  split at h
  · next b r hb => exact ⟨b, System.event_leads hb, h⟩
  · cases h
  · cases h

theorem System.HaltedAt.run {e : CoreError} {parts : State} {c d : System} {events : List Event}
    (h : c.HaltedAt e parts) (hreset : Event.reset ∉ events) (hrun : c.run events = .next d) : d.HaltedAt e parts := by
  induction events generalizing c with
  | nil => exact Host.Outcome.next.inj hrun ▸ h
  | cons ev events ih =>
    obtain ⟨b, hb, hrest⟩ := System.run_cons hrun
    rw [List.mem_cons, not_or] at hreset
    exact ih (h.event (Ne.symm hreset.1) hb) hreset.2 hrest

end Sys2Proof.Machine

namespace Sys2Proof.Proofs
open Sys2Proof.Machine

/-- Settles O54: both states are the reset record with some parameters. -/
theorem invariantAtReset : Obligations.InvariantAtReset :=
  ⟨State.reset_inv Config.hostParams 0, fun p => ⟨State.reset_inv p 0, fun _ => ⟨rfl, rfl, rfl, rfl⟩⟩⟩

/-- Settles O55: the invariant through each thing a step can lead to. -/
theorem stepKeepsInvariant : Obligations.StepKeepsInvariant := fun _ _ h hstep => h.step hstep

/-- Settles O56: the invariant through each thing an event can lead to. -/
theorem eventsKeepInvariant : Obligations.EventsKeepInvariant := fun _ _ _ _ h hd => h.event (System.event_leads hd)

/-- Settles O59, by induction on the events: each keeps the halt and everything but the timers and the latch. -/
theorem haltIsFinalUntilReset : Obligations.HaltIsFinalUntilReset := by
  intro events c d e hp hh hreset hrun
  have start : c.HaltedAt e c.core.withoutHostParts := ⟨hp, hh, rfl⟩
  obtain ⟨-, hhalt, hparts⟩ := start.run hreset hrun
  exact ⟨hhalt, (congrArg State.v hparts :), (congrArg State.i hparts :), (congrArg State.pc hparts :),
    ⟨(congrArg State.sp hparts :), (congrArg State.stack hparts :)⟩, (congrArg State.fb hparts :),
    fun a => congrArg (·.read a) (congrArg State.mem hparts :), (congrArg State.params hparts :)⟩

end Sys2Proof.Proofs
end

section
/-!
PROOFS. What CALL and RET write and leave, a run of calls, the shift operand as a number, the draw of RND, the timers, and
O18, O20 to O24, O33, O35, O37, O43 to O45 (40_control.md, 42_alu.md section 3 and 4, 44_timers.md, 60_exceptions.md R145).
-/
namespace Sys2Proof.Machine

/-! ## Calls and returns -/

/-- All but the return stack, SP and PC is as before. -/
def OnlyStackAndPc (s t : State) : Prop :=
  SameRegsExcept [] s t ∧ t.i = s.i ∧ SameTimers s t ∧ t.fb = s.fb ∧ SameMemory s t ∧ SameControl s t

section
variable (s : State)

theorem State.called_onlyStackAndPc (nnn : Addr12) : OnlyStackAndPc s (s.called nnn) :=
  ⟨fun _ _ => rfl, rfl, ⟨rfl, rfl⟩, rfl, fun _ => rfl, rfl, rfl, rfl, rfl, rfl⟩

theorem State.returned_onlyStackAndPc : OnlyStackAndPc s s.returned :=
  ⟨fun _ _ => rfl, rfl, ⟨rfl, rfl⟩, rfl, fun _ => rfl, rfl, rfl, rfl, rfl, rfl⟩

/-- A return writes nothing outside the frame of the call before it. -/
theorem State.called_returned_onlyStackAndPc (nnn : Addr12) : OnlyStackAndPc s (s.called nnn).returned :=
  (s.called nnn).returned_onlyStackAndPc

theorem State.called_sp (nnn : Addr12) (h : s.sp.val < 16) : (s.called nnn).sp.val = s.sp.val + 1 :=
  sp_succ_val h

theorem State.called_slot (nnn : Addr12) (h : s.sp.val < 16) : (s.called nnn).stack[s.sp.val] = s.pc + 2 :=
  Vector.getElem_setIfInBounds_self h

theorem State.called_slot_other (nnn : Addr12) {k : Nat} (hk : k < 16) (h : k ≠ s.sp.val) :
    (s.called nnn).stack[k] = s.stack[k] :=
  Vector.getElem_setIfInBounds_ne hk (Ne.symm h)

theorem State.called_returned_sp (nnn : Addr12) (h : s.sp.val < 16) : (s.called nnn).returned.sp = s.sp := by
  have := s.called_sp nnn h
  exact Fin.ext (show (s.called nnn).sp.val - 1 = s.sp.val by omega)

theorem State.called_returned_pc (nnn : Addr12) (h : s.sp.val < 16) : (s.called nnn).returned.pc = s.pc + 2 := by
  show (s.called nnn).stack[(s.called nnn).sp.val - 1] = _
  simp only [s.called_sp nnn h, Nat.add_sub_cancel, s.called_slot nnn h]

end

/-- Calls succeed while there are free slots, and each takes one. -/
theorem callAll_free (targets : List Addr12) (s : State) (h : s.sp.val + targets.length ≤ 16) :
    ∃ t, callAll targets s = .next t ∧ t.sp.val = s.sp.val + targets.length ∧ t.halt = s.halt := by
  induction targets generalizing s with
  | nil => exact ⟨s, rfl, rfl, rfl⟩
  | cons nnn rest ih =>
    rw [List.length_cons] at h
    have hsp := s.called_sp nnn (by omega)
    obtain ⟨t, ht, hts, hth⟩ := ih (s.called nnn) (by omega)
    refine ⟨t, ?_, by rw [hts, hsp, List.length_cons]; omega, hth⟩
    simp only [callAll, exec_call_free nnn s (by omega), ht]

/-! ## Shifts, the draw and the timers -/

theorem shiftOperand_toNat (s : State) (x y : Reg) : (shiftOperand s x y).toNat =
    if s.params.shiftSource = .vy then (s.reg y).toNat else (s.reg x).toNat := by
  unfold shiftOperand
  cases s.params.shiftSource <;> rfl

theorem ticks_timers (n : Nat) (s : State) :
    (ticks n s).dt.toNat = s.dt.toNat - n ∧ (ticks n s).st.toNat = s.st.toNat - n := by
  induction n generalizing s with
  | zero => exact ⟨rfl, rfl⟩
  | succ n ih =>
    obtain ⟨hdt, hst⟩ := ih s.tick
    rw [State.tick_dt, countDown_toNat] at hdt
    rw [State.tick_st, countDown_toNat] at hst
    exact ⟨hdt.trans (by omega), hst.trans (by omega)⟩

theorem State.soundActive_iff (s : State) : s.soundActive = true ↔ s.st ≠ 0 := bne_iff_ne

end Sys2Proof.Machine

namespace Sys2Proof.Proofs
open Sys2Proof.Machine

/-- Settles O18: SYS is the advance, which sets PC alone. -/
theorem sysOnlyAdvances : Obligations.SysOnlyAdvances := fun nnn s =>
  ⟨s.advance, exec_sys nnn s, rfl, s.setPc_onlyPc (s.pc + 2)⟩

/-- Settles O20: JP V0 sets PC alone, to the sum. -/
theorem jumpV0AddsV0 : Obligations.JumpV0AddsV0 := fun nnn s =>
  ⟨_, exec_jpV0 nnn s, jumpV0Target_toNat s nnn, s.setPc_onlyPc (jumpV0Target s nnn)⟩

/-- Settles O21: CALL with a free slot is `State.called`, and raises with none. -/
theorem callPushesReturnAddress : Obligations.CallPushesReturnAddress := fun nnn s =>
  ⟨fun h => ⟨s.called nnn, exec_call_free nnn s h, s.called_slot nnn h, fun _ hk hne => s.called_slot_other nnn hk hne,
    s.called_sp nnn h, addrOfNNN_toNat nnn, s.called_onlyStackAndPc nnn⟩, exec_call_full nnn s⟩

/-- Settles O22: RET with an occupied slot is `State.returned`, and raises with none. -/
theorem retPopsReturnAddress : Obligations.RetPopsReturnAddress := fun s =>
  ⟨fun h => ⟨s.returned, exec_ret_occupied s h, rfl, rfl, rfl, s.returned_onlyStackAndPc⟩, exec_ret_empty s⟩

/-- Settles O23: the return pops the slot the call pushed. -/
theorem callThenRetReturns : Obligations.CallThenRetReturns := by
  intro nnn s h
  have occupied : 0 < (s.called nnn).sp.val := by rw [s.called_sp nnn h]; omega
  exact ⟨s.called nnn, (s.called nnn).returned, exec_call_free nnn s h, exec_ret_occupied _ occupied,
    s.called_returned_pc nnn h, s.called_returned_sp nnn h, fun _ hk hne => s.called_slot_other nnn hk hne,
    s.called_returned_onlyStackAndPc nnn⟩

/-- Settles O24: sixteen calls take the sixteen slots, by induction on the calls. -/
theorem seventeenthCallOverflows : Obligations.SeventeenthCallOverflows := by
  intro targets s hsp hlen
  have free : s.sp.val = 0 := congrArg Fin.val hsp
  obtain ⟨t, ht, hts, hth⟩ := callAll_free targets s (by omega)
  have full : t.sp.val = 16 := by omega
  exact ⟨t, ht, Fin.ext full, hth, fun nnn => exec_call_full nnn t full⟩

/-- Settles O33: both shifts are the flag template on the operand `SHIFT_SOURCE` names. -/
theorem shiftSetsBitOut : Obligations.ShiftSetsBitOut := by
  rintro x y s src rfl
  rw [← shiftOperand_toNat]
  exact ⟨exec_writes_flag (exec_shr x y s) (shiftedRight_toNat _) (lowBit_toNat _),
    exec_writes_flag (exec_shl x y s) (shiftedLeft_toNat _) (highBit_toNat _)⟩

/-- Settles O35: RND commits the masked byte to Vx and counts the draw. -/
theorem randomByteMasked : Obligations.RandomByteMasked := by
  intro x kk s
  obtain ⟨hi, hstack, htimers, hfb, hmem, hkey, hparams, -, hhalt, hwait⟩ :=
    s.setReg_onlyRegsAndPc x (s.randomByte &&& kk)
  exact ⟨_, exec_rnd x kk s, s.setReg_reg_same x _, rfl, rfl, s.setReg_advance_other x _, hi, hstack, htimers, hfb, hmem,
    hkey, hparams, hhalt, hwait⟩

/-- Settles O37: LD F commits the glyph's address to I. -/
theorem glyphAddressSelected : Obligations.GlyphAddressSelected := fun x s =>
  exec_writes_index (exec_ldF x s) (glyphAddr_toNat (s.reg x))

/-- Settles O43: the read of DT commits to Vx, and the two loads write their timer alone. -/
theorem timerTransfers : Obligations.TimerTransfers := by
  intro x s
  refine ⟨exec_writes_result (· = s.dt) (exec_ldVxDT x s) rfl, ?_, ?_⟩
  · exact ⟨_, exec_ldDTVx x s, rfl, rfl, rfl, fun _ _ => rfl, rfl, ⟨rfl, rfl⟩, rfl, fun _ => rfl,
      rfl, rfl, rfl, rfl, rfl⟩
  · exact ⟨_, exec_ldSTVx x s, rfl, State.soundActive_iff _, rfl, rfl, fun _ _ => rfl, rfl, ⟨rfl, rfl⟩, rfl,
      fun _ => rfl, rfl, rfl, rfl, rfl, rfl⟩

/-- Settles O44: the tick counts both timers down, which is truncated subtraction. -/
theorem tickCountsDown : Obligations.TickCountsDown := by
  intro c
  refine ⟨{ c with core := c.core.tick }, rfl, ?_, ?_, rfl⟩
  · rw [State.tick_dt, countDown_toNat]
    split <;> omega
  · rw [State.tick_st, countDown_toNat]
    split <;> omega

/-- Settles O45: by induction on the ticks, as truncated subtraction. -/
theorem ticksNeverPassZero : Obligations.TicksNeverPassZero := by
  intro n s
  obtain ⟨hdt, hst⟩ := ticks_timers n s
  exact ⟨hdt.trans (by omega), hst.trans (by omega)⟩

end Sys2Proof.Proofs
end

section
/-!
PROOFS. The region check as the statements write it, the equations of the memory transfers and what their commits hold, and
O38 to O42 (43_index_memory.md R117 to R119, 20_memory.md R54, R70).
-/
namespace Sys2Proof.Machine

/-! ## The three transfers -/

theorem exec_ldB (x : Reg) (s : State) : exec (.ldB x) s = withRegion s s.regionBase 3
    (s.setMem (s.mem.writeBytes s.regionBase (bcdDigits (s.reg x)))).advance := rfl

theorem exec_ldMemVx (x : Reg) (s : State) : exec (.ldMemVx x) s = withRegion s s.regionBase (x.val + 1)
    ((s.setMem (s.mem.writeBytes s.regionBase (s.regsUpTo x))).setI (incrementedI s x)).advance := rfl

theorem exec_ldVxMem (x : Reg) (s : State) : exec (.ldVxMem x) s = withRegion s s.regionBase (x.val + 1)
    ((s.setRegs (s.loadedRegs x)).setI (incrementedI s x)).advance := rfl

/-- The region at I of `k + 1` bytes, its last address past the memory. -/
theorem withRegion_past {s : State} {k : Nat} (c : State) (h : 0xFFF < s.i.toNat + k) :
    withRegion s s.regionBase (k + 1) c = .next { s with halt := some (.addressOutOfRange (max s.i.toNat 0x1000)) } :=
  withRegion_outside s c (Nat.succ_pos k) (show 4096 < s.i.toNat + (k + 1) by omega)

/-- The region at I of `k + 1` bytes, its last address in the memory. -/
theorem withRegion_fits {s : State} {k : Nat} (c : State) (h : s.i.toNat + k ≤ 0xFFF) :
    withRegion s s.regionBase (k + 1) c = .next c :=
  withRegion_inside s c (.inr (show s.i.toNat + (k + 1) ≤ 4096 by omega))

theorem bcdDigits_toNat (b : Byte) :
    (bcdDigits b)[0].toNat = b.toNat / 100 ∧ (bcdDigits b)[1].toNat = b.toNat / 10 % 10 ∧
      (bcdDigits b)[2].toNat = b.toNat % 10 := by
  have := b.isLt
  refine ⟨?_, ?_, ?_⟩ <;> simp [bcdDigits] <;> omega

/-- A memory write, then a write of I and the advance, keep everything but the memory, I and PC. -/
theorem State.setMem_onlyIndexMemoryAndPc (s : State) (m : Memory) : OnlyIndexMemoryAndPc s (s.setMem m) :=
  have regs : SameRegsExcept [] s (s.setMem m) := fun r _ => s.setMem_reg m r
  have stack : SameStack s (s.setMem m) := ⟨s.setMem_sp m, s.setMem_stack m⟩
  have timers : SameTimers s (s.setMem m) := ⟨s.setMem_dt m, s.setMem_st m⟩
  have control : SameControl s (s.setMem m) :=
    ⟨s.setMem_key m, s.setMem_params m, s.setMem_draws m, s.setMem_halt m, s.setMem_wait m⟩
  ⟨regs, stack, timers, s.setMem_fb m, control⟩

theorem OnlyIndexMemoryAndPc.setI {s t : State} (h : OnlyIndexMemoryAndPc s t) (a : Word) :
    OnlyIndexMemoryAndPc s (t.setI a) := h

theorem OnlyIndexMemoryAndPc.advance {s t : State} (h : OnlyIndexMemoryAndPc s t) : OnlyIndexMemoryAndPc s t.advance := h

/-- A region write at I leaves the bytes outside its list. -/
theorem writeBytes_sameMemoryOutside (s t : State) (bs : List Byte) (ht : t.mem = s.mem.writeBytes s.regionBase bs) :
    SameMemoryOutside s.i.toNat bs.length s t := fun _ ha =>
  ht ▸ MemoryLaws.read_writeBytes_outside s.mem bs ha

/-- LD [I], Vx leaves V0..Vx at I..I+x. -/
theorem stored_read {s : State} (hm : s.mem.wf = true) {x k : Reg} (hfit : s.i.toNat + x.val ≤ 0xFFF) (hk : k ≤ x) :
    (s.mem.writeBytes s.regionBase (s.regsUpTo x)).read (s.i.toNat + k.val) = s.reg k := by
  have inside : k.val < (s.regsUpTo x).length := by rw [State.regsUpTo_length]; exact Nat.lt_succ_of_le hk
  rw [← State.regsUpTo_getElem s x k inside]
  exact MemoryLaws.read_writeBytes_inside hm _ (show s.i.toNat + _ ≤ 4096 by rw [State.regsUpTo_length]; omega) k.val inside

/-- A write of the registers, of I and the advance keep the rest. -/
theorem State.setRegs_setI_advance_frame (s : State) (f : Vector Byte 16) (a : Word) :
    ((s.setRegs f).setI a).advance.pc = s.pc + 2 ∧ SameStack s ((s.setRegs f).setI a).advance ∧
      SameTimers s ((s.setRegs f).setI a).advance ∧ ((s.setRegs f).setI a).advance.fb = s.fb ∧
      SameMemory s ((s.setRegs f).setI a).advance ∧ SameControl s ((s.setRegs f).setI a).advance :=
  ⟨rfl, ⟨rfl, rfl⟩, ⟨rfl, rfl⟩, rfl, fun _ => rfl, rfl, rfl, rfl, rfl, rfl⟩

end Sys2Proof.Machine

namespace Sys2Proof.Proofs
open Sys2Proof.Machine

/-- Settles O38: the region check, then the three digits read back from the region written. -/
theorem bcdDigitsStored : Obligations.BcdDigitsStored := by
  intro x s hm
  refine ⟨fun hfit => ?_, fun hpast => (exec_ldB x s).trans (withRegion_past _ hpast)⟩
  have digit := MemoryLaws.read_writeBytes_inside hm (bcdDigits (s.reg x))
    (show s.i.toNat + 3 ≤ 4096 by omega)
  obtain ⟨hundreds, tens, units⟩ := bcdDigits_toNat (s.reg x)
  exact ⟨_, (exec_ldB x s).trans (withRegion_fits _ hfit),
    (congrArg BitVec.toNat (digit 0 (show 0 < 3 by decide))).trans hundreds,
    (congrArg BitVec.toNat (digit 1 (show 1 < 3 by decide))).trans tens,
    (congrArg BitVec.toNat (digit 2 (show 2 < 3 by decide))).trans units,
    writeBytes_sameMemoryOutside s _ (bcdDigits (s.reg x)) rfl, rfl, rfl, (s.setMem_onlyIndexMemoryAndPc _).advance⟩

/-- Settles O39: the region check, then the registers read back from the region written. -/
theorem registersStored : Obligations.RegistersStored := by
  intro x s hm
  refine ⟨fun hfit => ?_, fun hpast => (exec_ldMemVx x s).trans (withRegion_past _ hpast)⟩
  have outside := writeBytes_sameMemoryOutside s (s.setMem (s.mem.writeBytes s.regionBase (s.regsUpTo x))) _ rfl
  rw [State.regsUpTo_length] at outside
  exact ⟨_, (exec_ldMemVx x s).trans (withRegion_fits _ hfit), fun k hk => stored_read hm hfit hk, outside,
    incrementedI_toNat s x, rfl, ((s.setMem_onlyIndexMemoryAndPc _).setI _).advance⟩

/-- Settles O40: the region check, then each register of the range from its byte. -/
theorem registersLoaded : Obligations.RegistersLoaded := by
  intro x s
  refine ⟨fun hfit => ?_, fun hpast => (exec_ldVxMem x s).trans (withRegion_past _ hpast)⟩
  exact ⟨_, (exec_ldVxMem x s).trans (withRegion_fits _ hfit),
    fun k hk => (s.loaded_reg x k).trans (if_pos hk), fun k hk => (s.loaded_reg x k).trans (if_neg (not_le_of_gt hk)),
    incrementedI_toNat s x, s.setRegs_setI_advance_frame (s.loadedRegs x) (incrementedI s x)⟩

/-- Settles O41: the load reads the bytes the store left. -/
theorem storeThenLoadRestores : Obligations.StoreThenLoadRestores := by
  intro x s hm hfit
  obtain ⟨t, ht, stored, -⟩ := (registersStored x s hm).1 hfit
  refine ⟨t, ht, fun u hmem hi => ?_⟩
  obtain ⟨w, hw, loaded, -⟩ := (registersLoaded x u).1 (hi ▸ hfit)
  exact ⟨w, hw, fun k hk => by rw [loaded k hk, hmem, hi, stored k hk]⟩

/-- Settles O42: after the store the two bytes at PC are V0 and V1. -/
theorem storeSeenByNextFetch : Obligations.StoreSeenByNextFetch := by
  intro x s hm hh hw hx hfit hi hd
  obtain ⟨t, ht, stored, -, -, hpc, -, -, -, -, -, -, -, hhalt, hwait⟩ := (registersStored x s hm).1 (by omega)
  have pc : t.pc.toNat = s.i.toNat := by
    rw [hpc, hi]
    bv_omega
  refine ⟨t, (stepRunsDecodedInstruction s _ hh hw (by omega) hd).trans ht, fun i hdi => ?_⟩
  have high : t.mem.read t.pc.toNat = s.reg 0 := pc ▸ stored 0 (Fin.zero_le x)
  have low : t.mem.read (t.pc.toNat + 1) = s.reg 1 := pc ▸ stored 1 (Fin.le_def.mpr hx)
  exact stepRunsDecodedInstruction t i (hhalt.trans hh) (hwait.trans hw) (by omega) (by rw [high, low, hdi])

end Sys2Proof.Proofs
end

section
/-!
PROOFS. DRW's blit as the drawing of its sprite's pixels, drawing twice, and O47 to O49 (45_display.md R123, R124).
-/
namespace Sys2Proof.Machine

theorem exec_drw (x y : Reg) (n : Nibble) (s : State) : exec (.drw x y n) s = withRegion s s.regionBase n.toNat
    ((s.setFb (s.blit x y n).fb).setReg vF (flagByte (s.blit x y n).collision)).advance := rfl

/-- The pixels the rows of the sprite fall on are those `SpriteSets` names. -/
theorem rowsSet_iff_spriteSets (s : State) (x y : Reg) (n : Nibble) (px : Fin 64) (py : Fin 32) :
    RowsSet (s.spriteRows n) ((s.reg x).toNat % 64) ((s.reg y).toNat % 32) px py ↔ SpriteSets s x y n px py := by
  constructor
  · rintro ⟨r, c, hr, hc, rfl, rfl, hbit⟩
    rw [State.spriteRows_getElem] at hbit
    exact ⟨r, c, s.spriteRows_length n ▸ hr, hc, rfl, rfl, hbit⟩
  · rintro ⟨r, c, hr, hc, hpx, hpy, hbit⟩
    have hr' : r < (s.spriteRows n).length := (s.spriteRows_length n).symm ▸ hr
    exact ⟨r, c, hr', hc, Fin.ext hpx, Fin.ext hpy, (s.spriteRows_getElem n r hr').symm ▸ hbit⟩

/-- The blit of DRW inverts the pixels under its sprite: a nibble of rows never overlaps itself. -/
theorem State.blit_drawn (s : State) (x y : Reg) (n : Nibble) :
    Drawn (SpriteSets s x y n) { fb := s.fb, collision := false } (s.blit x y n) := by
  have rows : (s.spriteRows n).length ≤ 32 := by
    have := n.isLt
    rw [State.spriteRows_length]
    omega
  have drawn := drawn_rows (s.spriteRows n) ((s.reg x).toNat % 64) ((s.reg y).toNat % 32) ⟨s.fb, false⟩ rows
  rwa [show RowsSet _ _ _ = SpriteSets s x y n from
    funext fun px => funext fun py => propext (rowsSet_iff_spriteSets s x y n px py)] at drawn

/-- The collision of DRW: a set pixel under a set sprite bit. -/
theorem State.blit_collision (s : State) (x y : Reg) (n : Nibble) :
    (s.blit x y n).collision = true ↔ ∃ px py, SpriteSets s x y n px py ∧ s.fb.pixel px py = true := by
  simpa using (s.blit_drawn x y n).collision

/-- The sprite of DRW is read from memory, I and its two registers alone. -/
theorem spriteSets_congr {s u : State} {x y : Reg} (n : Nibble) (hmem : u.mem = s.mem) (hi : u.i = s.i)
    (hx : u.reg x = s.reg x) (hy : u.reg y = s.reg y) : SpriteSets u x y n = SpriteSets s x y n := by
  unfold SpriteSets State.regionBase
  rw [hmem, hi, hx, hy]

/-- A drawing repeated restores the display. -/
theorem drawn_twice {S : Fin 64 → Fin 32 → Prop} {a b c d : Blit} (h1 : Drawn S a b) (h2 : Drawn S c d)
    (hfb : c.fb = b.fb) : d.fb = a.fb := by
  refine Framebuffer.ext_pixel fun px py => ?_
  by_cases hs : S px py
  · rw [h2.inverted px py hs, hfb, h1.inverted px py hs, Bool.not_not]
  · rw [h2.kept px py hs, hfb, h1.kept px py hs]

theorem flagByte_eq_one_iff {f : Bool} : flagByte f = 1 ↔ f = true := by
  cases f <;> decide

/-- A byte is not 0 when one of its eight bits, counted from the left, is set. -/
theorem byte_ne_zero_iff (b : Byte) : b ≠ 0 ↔ ∃ c, c < 8 ∧ b.getLsbD (7 - c) = true := by
  revert b
  decide

/-- A sprite has a set pixel exactly when one of its rows is not 0. -/
theorem exists_spriteSets_iff (s : State) (x y : Reg) (n : Nibble) :
    (∃ px py, SpriteSets s x y n px py) ↔ ∃ r, r < n.toNat ∧ s.mem.read (s.i.toNat + r) ≠ 0 := by
  constructor
  · rintro ⟨px, py, r, c, hr, hc, -, -, hbit⟩
    exact ⟨r, hr, (byte_ne_zero_iff _).mpr ⟨c, hc, hbit⟩⟩
  · rintro ⟨r, hr, hne⟩
    obtain ⟨c, hc, hbit⟩ := (byte_ne_zero_iff _).mp hne
    exact ⟨wrapColumn ((s.reg x).toNat % 64 + c), wrapRow ((s.reg y).toNat % 32 + r), r, c, hr, hc, rfl, rfl, hbit⟩

/-- A display write, the flag and the advance keep everything but the display, VF and PC. -/
theorem State.draw_frame (s : State) (f : Framebuffer) (b : Byte) :
    ((s.setFb f).setReg vF b).advance.pc = s.pc + 2 ∧ SameRegsExcept [vF] s ((s.setFb f).setReg vF b).advance ∧
      ((s.setFb f).setReg vF b).advance.i = s.i ∧ SameStack s ((s.setFb f).setReg vF b).advance ∧
      SameTimers s ((s.setFb f).setReg vF b).advance ∧ SameMemory s ((s.setFb f).setReg vF b).advance ∧
      SameControl s ((s.setFb f).setReg vF b).advance :=
  ⟨rfl, (s.setFb f).setReg_advance_other vF b, rfl, ⟨rfl, rfl⟩, ⟨rfl, rfl⟩, fun _ => rfl, rfl, rfl, rfl, rfl, rfl⟩

theorem exec_drw_fits {s : State} {n : Nibble} (x y : Reg) (h : n.toNat = 0 ∨ s.i.toNat + n.toNat ≤ 0x1000) :
    exec (.drw x y n) s =
      .next ((s.setFb (s.blit x y n).fb).setReg vF (flagByte (s.blit x y n).collision)).advance :=
  (exec_drw x y n s).trans (withRegion_inside s _ h)

theorem draw_vF (s : State) (f : Framebuffer) (b : Byte) : ((s.setFb f).setReg vF b).advance.reg vF = b :=
  State.setReg_reg_same _ vF b

end Sys2Proof.Machine

namespace Sys2Proof.Proofs
open Sys2Proof.Machine

/-- Settles O47: the blit is the drawing of the sprite's pixels, and its collision is a set one among them. -/
theorem drawXorsSprite : Obligations.DrawXorsSprite := by
  intro x y n s hfit
  obtain ⟨inverted, kept, -⟩ := s.blit_drawn x y n
  refine ⟨_, exec_drw_fits x y (.inr hfit), fun px py => ⟨inverted px py, kept px py⟩, ?_, ?_, s.draw_frame _ _⟩
  · rintro ⟨px, py, hset, hclear⟩
    rw [draw_vF, flagByte_eq_one_iff, State.blit_collision]
    refine ⟨px, py, by_contra fun hns => ?_, hset⟩
    exact absurd ((kept px py hns).symm.trans hclear) (by simp [hset])
  · intro hkeep
    have none : (s.blit x y n).collision = false := by
      refine Bool.eq_false_iff.mpr fun hcollision => ?_
      obtain ⟨px, py, hs, hset⟩ := (s.blit_collision x y n).mp hcollision
      exact absurd ((inverted px py hs).symm.trans (hkeep px py hset)) (by simp [hset])
    rw [draw_vF, none]
    rfl

/-- Settles O48: a row outside raises, and with no rows the blit changes nothing. -/
theorem drawOutOfRangeOrEmpty : Obligations.DrawOutOfRangeOrEmpty := by
  intro x y n s
  refine ⟨fun hpos hpast => ?_, fun hzero => ?_⟩
  · exact (exec_drw x y n s).trans (withRegion_outside s _ hpos <| show 4096 < s.i.toNat + n.toNat by omega)
  · have blit : s.blit x y n = ⟨s.fb, false⟩ := by
      rw [State.blit, State.spriteRows, hzero]
      rfl
    have hexec := exec_drw_fits (s := s) x y (.inl hzero)
    rw [blit] at hexec
    exact ⟨_, hexec, rfl, draw_vF s s.fb 0, s.draw_frame _ _⟩

/-- Settles O49: the second draw inverts the same pixels, which the first left set where the display was clear. -/
theorem drawTwiceRestores : Obligations.DrawTwiceRestores := by
  intro x y n s t u hfit ht hfb hmem hi hx hy
  rw [exec_drw_fits x y (.inr hfit)] at ht
  obtain rfl := Host.Outcome.next.inj ht
  have first := s.blit_drawn x y n
  have second := u.blit_drawn x y n
  rw [spriteSets_congr n hmem hi hx hy] at second
  refine ⟨_, exec_drw_fits x y (.inr (hi ▸ hfit)), drawn_twice first second hfb, fun hclear => ?_⟩
  have set : ∀ px py, SpriteSets s x y n px py → u.fb.pixel px py = true := fun px py hs => by
    rw [hfb]
    exact (first.inverted px py hs).trans (by simp [hclear])
  rw [draw_vF, flagByte_eq_one_iff, State.blit_collision, spriteSets_congr n hmem hi hx hy, ← exists_spriteSets_iff s x y]
  exact exists_congr fun px => exists_congr fun py => and_iff_left_of_imp (set px py)

end Sys2Proof.Proofs
end

section
/-!
PROOFS. The memory at reset, the ports, and O16, O17, O51 to O53 (10_state.md R45, 20_memory.md R62 to R65,
60_exceptions.md R151, R155, 70_reset_and_hazards.md R159, R160).
-/
namespace Sys2Proof.Machine

/-- The reset memory is the font at FONT_BASE. -/
theorem State.reset_read (a : Nat) : State.reset.mem.read a = font.getD a 0 := rfl

section
variable {c : System} {bytes : List Byte}

theorem System.load_fits (hp : c.phase = .fresh) (hlen : bytes.length ≤ maxRomSize) :
    c.load bytes = .next ({ core := c.core.loadRom bytes, phase := .loaded }, .loadOk) := by
  simp [System.load, hp, hlen]

theorem System.load_too_long (hp : c.phase = .fresh) (hlen : maxRomSize < bytes.length) :
    c.load bytes = .next (c, .loadErr (.romTooLarge bytes.length)) := by
  simp [System.load, hp, hlen]

theorem System.load_late (hp : c.phase ≠ .fresh) : c.load bytes = .refused .loadRomOutsideContract := by
  unfold System.load
  split
  · next hfresh => exact absurd hfresh hp
  · rfl
  · rfl

end

theorem System.setKey_inside (c : System) {index : Nat} (pressed : Bool) (h : index < 16) :
    c.setKey index pressed = .next ({ c with core := c.core.setKey ⟨index, h⟩ pressed }, .done) := dif_pos h

theorem System.setKey_outside (c : System) {index : Nat} (pressed : Bool) (h : 16 ≤ index) :
    c.setKey index pressed = .refused .keyIndexOutsideContract := dif_neg (by omega)

end Sys2Proof.Machine

namespace Sys2Proof.Proofs
open Sys2Proof.Machine

/-- Settles O16: the reset memory reads as the font, whose 80 bytes end before address 80. -/
theorem resetMemoryAndHiddenState : Obligations.ResetMemoryAndHiddenState :=
  ⟨fun _ h => Vector.getElem_replicate h, rfl, rfl, fun a _ => State.reset_read a,
    fun a h _ => MemoryLaws.unlisted_out_of_range a h, by decide⟩

/-- Settles O17: the reset event is the reset record with the parameters kept. -/
theorem resetEventRestoresState : Obligations.ResetEventRestoresState := fun c =>
  ⟨{ core := c.core.resetEvent, phase := .fresh }, rfl, rfl, c.core.resetEvent_params, rfl, rfl, rfl, rfl, rfl, rfl, rfl,
    rfl, rfl, fun _ => rfl, rfl, rfl⟩

/-- Settles O51: an index below 16 is a key, whose entry alone is written. -/
theorem setKeyWritesLatch : Obligations.SetKeyWritesLatch := fun c _ pressed =>
  ⟨fun h => ⟨_, c.setKey_inside pressed h, Vector.getElem_set_self h,
    fun _ hk hne => Vector.getElem_set_ne h hk (Ne.symm hne), rfl⟩, c.setKey_outside pressed⟩

/-- Settles O52: the load is a region write at 0x200 that stays inside the memory. -/
theorem loadRomPlacesBytes : Obligations.LoadRomPlacesBytes := fun c bytes =>
  ⟨fun hp hm hlen => ⟨_, System.load_fits hp hlen,
      MemoryLaws.read_writeBytes_inside hm bytes (show 0x200 + bytes.length ≤ 4096 by omega),
      fun _ ha => MemoryLaws.read_writeBytes_outside c.core.mem bytes ha, rfl⟩,
    System.load_too_long, System.load_late⟩

/-- Settles O53: the timer ports answer by definition. -/
theorem timerPortsReadTimers : Obligations.TimerPortsReadTimers := fun _ => ⟨rfl, rfl⟩

end Sys2Proof.Proofs
end
